-- ==== Sys2Proof/Word.lean ====
section
/-! DEFINITION. The block's two word widths and the names of its two envelope slots. -/

namespace Sys2Proof

/-- A byte, the unit of every buffer access (`20_memory.md` R68). -/
abbrev Byte := BitVec 8

/-- A 16-bit value: `serviceId`, the `v` operand and the `r` result (`30_encoding.md` R117). -/
abbrev Half := BitVec 16

/-- The two envelope slots, named at the port by the 1-bit operand `e`: 0 is `RXE`, 1 is `TXE` (`10_state.md` R20). -/
inductive Slot where
  | rxe
  | txe
deriving DecidableEq, Repr

end Sys2Proof
end

