-- ==== Sys2Proof/Config.lean ====
section
/-! DEFINITION. The implementation parameters of `00_scope.md` R5 to R11 and the values the spec leaves free. -/

namespace Sys2Proof

/-- R135: a checksum function changes when exactly one bit of one payload byte changes. -/
def PayloadBitSensitive (f : Byte → Byte → Half → Byte → List Byte → Byte) : Prop :=
  ∀ (cookie unitId : Byte) (serviceId : Half) (messageId : Byte) (payload : List Byte) (i k : Nat),
    i < payload.length → k < 8 →
    f cookie unitId serviceId messageId (payload.modify i (· ^^^ BitVec.twoPow 8 k)) ≠
      f cookie unitId serviceId messageId payload

/-- A legal `CSUM`: a function of exactly the five arguments of R134 that has the property of R135. -/
structure CsumFn where
  fn : Byte → Byte → Half → Byte → List Byte → Byte
  sensitive : PayloadBitSensitive fn

/-- Which checksum function a configuration has.
The two reference instances of R137, or a function about which nothing but R134 and R135 is known (R9, D5). -/
inductive CsumKind where
  | additive
  | exclusiveOr
  | uninterpreted (k : Nat)
deriving DecidableEq, Repr

/-- The open parameters in one list (`92_eei_decisions.md`, last section). -/
structure Config where
  /-- `CAP`, capacity in bytes of an envelope's `data` (R5). -/
  cap : Nat
  /-- `TAG_W`, bytes of a TLV tag (R7). -/
  tagW : Nat
  /-- `LEN_W`, bytes of a TLV length (R7). -/
  lenW : Nat
  /-- `LENF_W`, bytes of the stream length field (R8). -/
  lenfW : Nat
  /-- `LENF_BIAS`, by how much the length field exceeds the payload length (R8). -/
  lenfBias : Nat
  /-- `PARSE_VERIFY` (R10). -/
  parseVerify : Bool
  /-- `CSUM` (R9). -/
  csum : CsumKind
deriving DecidableEq, Repr

/-- Profile T, the spec's own test configuration (R11, D20).
DESIGN CHOICE (log entry 2): `State.reset` carries it, because one reset state must be a literal. -/
def Config.profileT : Config :=
  { cap := 32, tagW := 1, lenW := 1, lenfW := 1, lenfBias := 0, parseVerify := true, csum := .additive }

/-- FREE VALUE (log entry 4). The open `CSUM` of R9, one unknown legal function for every number.
The bracketed argument only tells Lean that legal functions exist. -/
opaque Config.freeCsum [Inhabited CsumFn] : Nat → CsumFn

/-- FREE VALUE (log entry 5). The byte at an index of a slot's `data` that the spec leaves unspecified (R29): slot, draw, index. -/
opaque Config.freeByte : Slot → Nat → Nat → Byte

/-- FREE VALUE (log entry 6). The 16-bit result of `IE.SIZE` for a size that 16 bits cannot hold (R117, R155). -/
opaque Config.freeSize : Nat → Half

/-- The builders the source names (R239). -/
inductive BuilderName where
  | alertNotifyRequest
  | alertNotifyResponse
  | deviceRegistrationRequest
  | deviceDeregistrationRequest
  | rawDataSendRequest
  | systemBatteryMeasureRequest
  | systemResetRequest
  | rssiGet
  | tamperNotifyRequest
  | tamperNotifyResponse
  | voiceCallStartRequest
  | voiceCallStartResponse
  | voiceCallEndRequest
  | voiceCallEndResponse
deriving DecidableEq, Repr

/-- The services the source names (R239). `general` is the service of the inbound Hello-Indication only (R244). -/
inductive ServiceName where
  | alert
  | deviceManagement
  | funRawData
  | system
  | tamper
  | voiceCall
  | general
deriving DecidableEq, Repr

/-- FREE VALUE (log entry 7). The `SVC_` constant of a service, which no source gives (R239). -/
opaque Config.serviceConstant : ServiceName → Half

/-- FREE VALUE (log entry 7). The `SVC_` constant of a builder whose service is not stated (R239: RSSI-Get). -/
opaque Config.unstatedService : BuilderName → Half

/-- FREE VALUE (log entry 7). The `MSG_` constant of a builder, which no source gives (R239). -/
opaque Config.builderMessage : BuilderName → Byte

/-- FREE VALUE (log entry 7). The tag of the element that carries an RFPI (R242), for each width of a tag. -/
opaque Config.rfpiTag : (tagW : Nat) → BitVec (8 * tagW)

/-- FREE VALUE (log entry 7). The tag of the element that carries the raw data (R239, R243), for each width of a tag. -/
opaque Config.rawDataTag : (tagW : Nat) → BitVec (8 * tagW)

end Sys2Proof
end

