-- ==== Sys2Proof/Syntax.lean ====
section
/-! DEFINITION. The command port's transaction (`30_encoding.md` R117) and the seventeen operations of R118. -/

namespace Sys2Proof

/-- The header fields that the selector `f` of `ENV.SET` names (R117, R174). -/
inductive HeaderField where
  | cookie
  | unitId
  | serviceId
  | messageId
  | checksum
deriving DecidableEq, Repr

/-- One transaction: the values of the port's input lines (R117).
`tag` has `8*TAG_W` lines, a width the configuration fixes, so it is a number here. -/
structure Transaction where
  op : BitVec 5
  e : BitVec 1 := 0
  b : Byte := 0
  f : BitVec 3 := 0
  v : Half := 0
  tag : Nat := 0
  n : Nat := 0
  ibuf : List Byte := []
deriving DecidableEq, Repr

/-- One operation of the block with its operands, one constructor per row of `opcode_table.json`. -/
inductive Instr where
  /-- `CTX.INIT` (R190) -/
  | ctxInit
  /-- `FEED b` (R191) -/
  | feed (b : Byte)
  /-- `PARSE e, ibuf, n` (R220) -/
  | parse (e : Slot) (ibuf : List Byte) (n : Nat)
  /-- `ENV.CLR e` (R172) -/
  | envClr (e : Slot)
  /-- `ENV.SET e, f, v` (R174) -/
  | envSet (e : Slot) (f : HeaderField) (v : Half)
  /-- `ENV.SETLEN` (R176) -/
  | envSetLen
  /-- `IE.NEW e, n` (R150) -/
  | ieNew (e : Slot) (n : Nat)
  /-- `IE.ADD tag, ibuf, n` (R151 to R154) -/
  | ieAdd (tag : Nat) (ibuf : List Byte) (n : Nat)
  /-- `IE.SIZE` (R155) -/
  | ieSize
  /-- `IE.GET e, tag, n` (R156) -/
  | ieGet (e : Slot) (tag : Nat) (n : Nat)
  /-- `H2N16 v` (R131) -/
  | h2n16 (v : Half)
  /-- `N2H16 v` (R132) -/
  | n2h16 (v : Half)
  /-- `CKS.CALC e` (R138) -/
  | cksCalc (e : Slot)
  /-- `CKS.VFY e` (R139) -/
  | cksVfy (e : Slot)
  /-- `CKS.SEAL e` (R140) -/
  | cksSeal (e : Slot)
  /-- `SER e` (R180) -/
  | ser (e : Slot)
  /-- `SERS e` (R181) -/
  | sers (e : Slot)
deriving DecidableEq, Repr

end Sys2Proof
end

