-- ==== Sys2Proof/WellFormed.lean ====
section
/-! DEFINITION. Which configurations the rules hold for (R11), and which operands an operation may be given under one. -/

namespace Sys2Proof

/-- R11, less the properties of `CSUM`, which `CsumFn` carries. -/
def Config.wf (c : Config) : Bool :=
  decide (1 ≤ c.cap) && decide (1 ≤ c.tagW) && decide (c.tagW ≤ 4) && decide (1 ≤ c.lenW) && decide (c.lenW ≤ 4) &&
  decide (1 ≤ c.lenfW) && decide (c.lenfW ≤ 4) && decide (c.cap + c.lenfBias < 2 ^ (8 * c.lenfW))

/-- The `tag` port has `8*TAG_W` lines (R117). -/
def Config.tagFits (c : Config) (tag : Nat) : Bool := decide (tag < 2 ^ (8 * c.tagW))

/-- The length field of a TLV entry has `LEN_W` bytes (R154). -/
def Config.lengthFits (c : Config) (n : Nat) : Bool := decide (n < 2 ^ (8 * c.lenW))

/-- The operand conditions of the operations: `n` within the buffer given (R230), `n <= CAP` (R150),
`|ibuf| = n` and `n < 2^(8*LEN_W)` (R151, R154), a tag of `8*TAG_W` bits (R117). -/
def Instr.wf (c : Config) : Instr → Bool
  | .parse _ ibuf n => decide (n ≤ ibuf.length)
  | .ieNew _ n => decide (n ≤ c.cap)
  | .ieAdd tag ibuf n => decide (ibuf.length = n) && c.lengthFits n && c.tagFits tag
  | .ieGet _ tag _ => c.tagFits tag
  | .ctxInit | .feed _ | .envClr _ | .envSet _ _ _ | .envSetLen | .ieSize | .h2n16 _ | .n2h16 _
  | .cksCalc _ | .cksVfy _ | .cksSeal _ | .ser _ | .sers _ => true

end Sys2Proof
end

