-- ==== Sys2Proof/Decode.lean ====
section
/-! DEFINITION. From the port's lines to an operation (`30_encoding.md` R117, R118), total, and the encoder back. -/

namespace Sys2Proof

/-- Why a transaction has no operation (R108). -/
inductive DecodeError where
  /-- Operation codes `0x11` to `0x1F`. -/
  | reservedCode (op : BitVec 5)
  /-- `ENV.SET` selectors 5 to 7. -/
  | reservedSelector (f : BitVec 3)
deriving DecidableEq, Repr

/-- R20: 0 is `RXE`, 1 is `TXE`. -/
def Slot.ofBit (e : BitVec 1) : Slot := if e = 0#1 then .rxe else .txe

/-- The `e` line for a slot. -/
def Slot.toBit : Slot → BitVec 1
  | .rxe => 0#1
  | .txe => 1#1

/-- R117: 0 cookie, 1 unitId, 2 serviceId, 3 messageId, 4 checksum; 5 to 7 reserved (R108). -/
def HeaderField.ofSelector (f : BitVec 3) : Option HeaderField :=
  match f.toNat with
  | 0 => some .cookie
  | 1 => some .unitId
  | 2 => some .serviceId
  | 3 => some .messageId
  | 4 => some .checksum
  | _ => none

/-- The `f` lines for a field. -/
def HeaderField.selector : HeaderField → BitVec 3
  | .cookie => 0#3
  | .unitId => 1#3
  | .serviceId => 2#3
  | .messageId => 3#3
  | .checksum => 4#3

/-- The operation table R118: the code selects the operation, and only that operation's operand lines are read. -/
def decode (t : Transaction) : Except DecodeError Instr :=
  match t.op.toNat with
  | 0x00 => .ok .ctxInit
  | 0x01 => .ok (.feed t.b)
  | 0x02 => .ok (.parse (Slot.ofBit t.e) t.ibuf t.n)
  | 0x03 => .ok (.envClr (Slot.ofBit t.e))
  | 0x04 =>
    match HeaderField.ofSelector t.f with
    | some field => .ok (.envSet (Slot.ofBit t.e) field t.v)
    | none => .error (.reservedSelector t.f)
  | 0x05 => .ok .envSetLen
  | 0x06 => .ok (.ieNew (Slot.ofBit t.e) t.n)
  | 0x07 => .ok (.ieAdd t.tag t.ibuf t.n)
  | 0x08 => .ok .ieSize
  | 0x09 => .ok (.ieGet (Slot.ofBit t.e) t.tag t.n)
  | 0x0A => .ok (.h2n16 t.v)
  | 0x0B => .ok (.n2h16 t.v)
  | 0x0C => .ok (.cksCalc (Slot.ofBit t.e))
  | 0x0D => .ok (.cksVfy (Slot.ofBit t.e))
  | 0x0E => .ok (.cksSeal (Slot.ofBit t.e))
  | 0x0F => .ok (.ser (Slot.ofBit t.e))
  | 0x10 => .ok (.sers (Slot.ofBit t.e))
  | _ => .error (.reservedCode t.op)

/-- The transaction that presents an operation: its code of R118 and its operands, every other line at 0. -/
def encode : Instr → Transaction
  | .ctxInit => { op := 0x00#5 }
  | .feed b => { op := 0x01#5, b := b }
  | .parse e ibuf n => { op := 0x02#5, e := e.toBit, ibuf := ibuf, n := n }
  | .envClr e => { op := 0x03#5, e := e.toBit }
  | .envSet e f v => { op := 0x04#5, e := e.toBit, f := f.selector, v := v }
  | .envSetLen => { op := 0x05#5 }
  | .ieNew e n => { op := 0x06#5, e := e.toBit, n := n }
  | .ieAdd tag ibuf n => { op := 0x07#5, tag := tag, ibuf := ibuf, n := n }
  | .ieSize => { op := 0x08#5 }
  | .ieGet e tag n => { op := 0x09#5, e := e.toBit, tag := tag, n := n }
  | .h2n16 v => { op := 0x0A#5, v := v }
  | .n2h16 v => { op := 0x0B#5, v := v }
  | .cksCalc e => { op := 0x0C#5, e := e.toBit }
  | .cksVfy e => { op := 0x0D#5, e := e.toBit }
  | .cksSeal e => { op := 0x0E#5, e := e.toBit }
  | .ser e => { op := 0x0F#5, e := e.toBit }
  | .sers e => { op := 0x10#5, e := e.toBit }

/-- The transaction that a number stands for, `nbits` low bits of it counting.
The table numbers the `op` lines 4..0.
DESIGN CHOICE (log entry 8): the fixed-width lines follow in the order of R117 (`e` 5, `b` 13..6, `f` 16..14, `v` 32..17),
and the lines without a fixed width (`tag`, `n`, `ibuf`) are zero or empty. -/
def Transaction.ofTableWord (nbits w : Nat) : Transaction :=
  let x := w % 2 ^ nbits
  { op := BitVec.ofNat 5 x, e := BitVec.ofNat 1 (x >>> 5), b := BitVec.ofNat 8 (x >>> 6),
    f := BitVec.ofNat 3 (x >>> 14), v := BitVec.ofNat 16 (x >>> 17) }

/-- The operation the decoder reads from a table word. -/
def decodeTableWord (nbits w : Nat) : Option Instr :=
  (decode (Transaction.ofTableWord nbits w)).toOption

end Sys2Proof
end

