-- ==== Sys2Proof/Machine/State.lean ====
section
/-! DEFINITION. The block's state (`10_state.md`), the model's own fields beside it, the ways a step can stop, and reset. -/

namespace Sys2Proof.Machine

/-- What a byte that no cell lists reads as: 0, or an unspecified byte of the slot's given draw (`10_state.md` R29). -/
inductive Fill where
  | zero
  | free (e : Slot) (draw : Nat)
deriving DecidableEq, Repr

/-- One byte-addressed space (`10_state.md` R44): the bytes listed by index, and what the others read as. -/
structure Memory where
  cells : List Host.Cell
  fill : Fill
deriving DecidableEq, Repr

/-- A space all of whose bytes are zero. -/
def Memory.zero : Memory := { cells := [], fill := .zero }

/-- An envelope slot (`10_state.md` R20 to R29). -/
structure Envelope where
  /-- R21 -/
  cookie : Byte
  /-- R22 -/
  unitId : Byte
  /-- R23: the number itself, in no byte order. -/
  serviceId : Half
  /-- R24 -/
  messageId : Byte
  /-- R25 -/
  checksum : Byte
  /-- R26: a natural number, kept in `0..CAP` by the invariant R28. -/
  dataLength : Nat
  /-- R27: `CAP` bytes. -/
  data : Memory
deriving DecidableEq, Repr

/-- The all-zero envelope (R46, R172). -/
def Envelope.zero : Envelope :=
  { cookie := 0, unitId := 0, serviceId := 0, messageId := 0, checksum := 0, dataLength := 0, data := .zero }

/-- `CTX.phase` (R32): 0 is `awaitingHeader`, 1 is `awaitingPayload`. -/
inductive Phase where
  | awaitingHeader
  | awaitingPayload
deriving DecidableEq, Repr

/-- The parser context (`10_state.md` R30 to R38). -/
structure Ctx where
  /-- R31 -/
  count : Nat
  /-- R32 -/
  phase : Phase
  /-- R33: `SHDR` bytes. -/
  hdr : Memory
  /-- R34 -/
  declLen : Nat
  /-- R35: `CAP` bytes. -/
  payload : Memory
deriving DecidableEq, Repr

/-- The zero state of `CTX` (R36). -/
def Ctx.zero : Ctx := { count := 0, phase := .awaitingHeader, hdr := .zero, declLen := 0, payload := .zero }

/-- The IE list view (`10_state.md` R39, R40). -/
structure Iel where
  slot : Slot
  cap : Nat
  size : Nat
deriving DecidableEq, Repr

/-- The list view after reset (R46). -/
def Iel.zero : Iel := { slot := .rxe, cap := 0, size := 0 }

/-- The causes of an `ok = 0` (`60_exceptions.md` R261). GHOST: not visible at the interface. -/
inductive Cause where
  | undersize
  | lenOverflow
  | csumMismatch
  | ieAbsent
  | ieCapacity
deriving DecidableEq, Repr

/-- The port's output lines for one transaction (`30_encoding.md` R117); `none` where the operation does not drive a line.
`cause` is ghost (R261). -/
structure Response where
  ok : Bool
  r : Option Half := none
  obuf : Option (List Byte) := none
  olen : Option Nat := none
  cause : Option Cause := none
deriving DecidableEq, Repr

/-- The four spaces that the block holds (`10_state.md` R44, 1 to 4). -/
inductive Space where
  | rxeData
  | txeData
  | ctxPayload
  | ctxHdr
deriving DecidableEq, Repr

/-- The reasons a step can stop with a fault. -/
inductive Fault where
  /-- Raised by `State.readBytes` and `State.writeBytes` for an access that ends beyond the space's capacity.
  R13 and R70 say that no operation makes one; the model states this as a claim. Safe: the machine stops. -/
  | outOfBounds (space : Space) (stop : Nat)
deriving DecidableEq, Repr

/-- The reasons a step can be refused: the inputs and executions to which the spec gives no meaning (R283, D18). All safe. -/
inductive Refusal where
  /-- Raised by an arm of `exec` whose instruction has no meaning yet. No arm is left so. -/
  | notModelled (mnemonic : String)
  /-- Raised by `step` for operation codes `0x11` to `0x1F` (R108, U9). -/
  | reservedCode (op : BitVec 5)
  /-- Raised by `step` for `ENV.SET` selectors 5 to 7 (R108, U9). -/
  | reservedSelector (f : BitVec 3)
  /-- Raised by every operation under a configuration that R11 excludes. -/
  | illFormedConfig
  /-- Raised by an operation on a slot with `dataLength > CAP` (R28, U13). -/
  | brokenEnvelope (e : Slot)
  /-- Raised by a list operation when `size <= cap <= CAP` fails (R40, U13). -/
  | brokenList
  /-- Raised by `FEED` on a context that breaks R37 (U13). -/
  | brokenContext
  /-- Raised by `IE.NEW` with `n > CAP` (R150, U10). -/
  | capacityBeyondBuffer
  /-- Raised by `IE.ADD` with `n >= 2^(8*LEN_W)` (R154, U11). -/
  | lengthNotEncodable
  /-- Raised by `PARSE` and `IE.ADD` when `ibuf` has fewer than `n` bytes (R230, U12; R151). -/
  | operandTooShort
  /-- Raised by `IE.ADD` and `IE.GET` for a tag that the `tag` port's `8*TAG_W` lines cannot present (R117, U11). -/
  | tagNotPresentable
deriving DecidableEq, Repr


/-- The state. `rxe`, `txe`, `ctx` and `iel` are the block's (R18); the other fields are the model's own. -/
structure State where
  /-- MODEL: the configuration of R5 to R11, which no operation changes. -/
  cfg : Config
  /-- `RXE` (R20) -/
  rxe : Envelope
  /-- `TXE` (R20) -/
  txe : Envelope
  /-- `CTX` (R30) -/
  ctx : Ctx
  /-- `IEL` (R39) -/
  iel : Iel
  /-- MODEL: how many times the unspecified bytes of `RXE.data` have been drawn (R29). -/
  rxDraws : Nat
  /-- MODEL: how many times the unspecified bytes of `TXE.data` have been drawn (R29). -/
  txDraws : Nat
  /-- MODEL: the transactions that the outside parties present at the port, in order of issue (R17, R60). -/
  port : List Transaction
  /-- MODEL: the output lines of the last transaction (R117); no operation reads them (R41). -/
  resp : Option Response
deriving DecidableEq, Repr

/-- The state after reset under a configuration (R46, R290). -/
def State.resetWith (c : Config) : State :=
  { cfg := c, rxe := .zero, txe := .zero, ctx := .zero, iel := .zero, rxDraws := 0, txDraws := 0, port := [], resp := none }

/-- The state after reset, in profile T (log entry 2). -/
def State.reset : State := State.resetWith Config.profileT

end Sys2Proof.Machine
end

