-- ==== Sys2Proof/Machine/Operands.lean ====
section
/-! DEFINITION. Operand forms and wire layouts: derived widths, byte order, header fields, frames, TLV entries. -/

namespace Sys2Proof.Machine

/-- `HDR`, the width of the fixed header (`00_scope.md` R6). -/
def hdrLen : Nat := 6

/-- `OVH = TAG_W + LEN_W` (R7). -/
def ovh (c : Config) : Nat := c.tagW + c.lenW

/-- `SHDR = LENF_W + HDR` (R8). -/
def shdr (c : Config) : Nat := c.lenfW + hdrLen

/-- `v[15:8]` (R12). -/
def hiByte (v : Half) : Byte := v.extractLsb' 8 8

/-- `v[7:0]` (R12). -/
def loByte (v : Half) : Byte := v.extractLsb' 0 8

/-- `hi ‖ lo`, that is `256 * hi + lo` (R12, R64, R91). -/
def joinBytes (hi lo : Byte) : Half := hi ++ lo

/-- `v[7:0] ‖ v[15:8]`, the byte swap of R131 and R132. -/
def swapBytes (v : Half) : Half := joinBytes (loByte v) (hiByte v)

/-- `be_N(v)`: the `N` bytes of `v`, most significant first (R12, R65). -/
def beBytes : Nat → Nat → List Byte
  | 0, _ => []
  | n + 1, v => BitVec.ofNat 8 (v / 256 ^ n) :: beBytes n v

/-- `be_val(bytes)` (R12). -/
def beVal (bytes : List Byte) : Nat := bytes.foldl (fun acc b => 256 * acc + b.toNat) 0

/-- `B[i..i+n)` of a byte list (R13). -/
def slice (bytes : List Byte) (i n : Nat) : List Byte := (bytes.drop i).take n

/-- The five fields of the fixed header (`30_encoding.md` R90). -/
structure Header where
  cookie : Byte
  unitId : Byte
  serviceId : Half
  messageId : Byte
  checksum : Byte
deriving DecidableEq, Repr

/-- R91, R196, R223: the fields at the fixed offsets 0, 1, 2 and 3, 4, 5. -/
def headerOf (h : List Byte) : Header :=
  { cookie := h.getD 0 0, unitId := h.getD 1 0, serviceId := joinBytes (h.getD 2 0) (h.getD 3 0),
    messageId := h.getD 4 0, checksum := h.getD 5 0 }

/-- R92: the six header bytes. -/
def headerBytes (h : Header) : List Byte :=
  [h.cookie, h.unitId, hiByte h.serviceId, loByte h.serviceId, h.messageId, h.checksum]

/-- The packet form of a frame (R90, R92). -/
def frameBytes (h : Header) (payload : List Byte) : List Byte := headerBytes h ++ payload

/-- The stream form: the length field, then the frame (R95, R96). -/
def streamBytes (c : Config) (h : Header) (payload : List Byte) : List Byte :=
  beBytes c.lenfW (payload.length + c.lenfBias) ++ frameBytes h payload

/-- One TLV entry (R100). -/
def tlvBytes (c : Config) (tag : Nat) (value : List Byte) : List Byte :=
  beBytes c.tagW tag ++ beBytes c.lenW value.length ++ value

/-- The scan of R156 from index `pos` of a payload, at most `fuel` entries long: the value of the first entry with the tag,
if its length is `n`. Both bounds tests come before the tag is compared (R158). -/
def ieFind (c : Config) (payload : List Byte) (tag n : Nat) : Nat → Nat → Option (List Byte)
  | 0, _ => none
  | fuel + 1, pos =>
    if pos + ovh c > payload.length then none
    else
      let t := beVal (slice payload pos c.tagW)
      let l := beVal (slice payload (pos + c.tagW) c.lenW)
      if pos + ovh c + l > payload.length then none
      else if t = tag then
        if l = n then some (slice payload (pos + ovh c) l) else none
      else ieFind c payload tag n fuel (pos + ovh c + l)

/-- R156's bound on the number of iterations. -/
def ieFuel (c : Config) (payload : List Byte) : Nat := payload.length / ovh c + 1

end Sys2Proof.Machine
end

