-- ==== Sys2Proof/Machine/Flags.lean ====
section
/-! DEFINITION. The one condition output: the result bit `ok`, with the scalar and buffer results beside it.
The block has no status flags (`10_state.md` R41, R43). -/

namespace Sys2Proof.Machine

/-- `return ok` with no other result. -/
def Response.okBit (ok : Bool) : Response := { ok := ok }

/-- `r <- v; return ok = 1`. -/
def Response.scalar (v : Half) : Response := { ok := true, r := some v }

/-- `obuf <- bytes; olen <- |bytes|; return ok = 1`. -/
def Response.buffer (bytes : List Byte) : Response := { ok := true, obuf := some bytes, olen := some bytes.length }

/-- `return ok = 0` at a rejection, no output operand written (R262). -/
def Response.rejected (cause : Cause) : Response := { ok := false, cause := some cause }

end Sys2Proof.Machine
end

