-- ==== Sys2Proof/Machine/Ops.lean ====
section
/-! DEFINITION. The named operations over buffers and registers, the precondition test, and the one rejection operation. -/

namespace Sys2Proof.Machine

/-- What a step answers. -/
abbrev Answer := Host.Outcome State Fault Refusal

/-! ### One buffer -/

/-- What an unlisted index reads as (R29, R46). -/
def Fill.byte : Fill → Nat → Byte
  | .zero, _ => 0
  | .free e draw, i => Config.freeByte e draw i

/-- The listed byte at an index. -/
def findCell (i : Nat) : List Host.Cell → Option Byte
  | [] => none
  | c :: rest => if c.1 = i then some c.2 else findCell i rest

/-- List a byte at an index, keeping the indices rising. -/
def insertCell (i : Nat) (b : Byte) : List Host.Cell → List Host.Cell
  | [] => [(i, b)]
  | c :: rest =>
    if i < c.1 then (i, b) :: c :: rest
    else if i = c.1 then (i, b) :: rest
    else c :: insertCell i b rest

/-- Unlist an index. -/
def removeCell (i : Nat) : List Host.Cell → List Host.Cell
  | [] => []
  | c :: rest => if c.1 = i then removeCell i rest else c :: removeCell i rest

/-- `B[i]`. -/
def Memory.get (m : Memory) (i : Nat) : Byte := (findCell i m.cells).getD (m.fill.byte i)

/-- `B[i] <- b`. A zero written over a zero fill is unlisted, so that equal contents are equal data.
Over an unspecified fill every written byte is listed: nothing is known to equal it. -/
def Memory.set (m : Memory) (i : Nat) (b : Byte) : Memory :=
  if m.fill = .zero ∧ b = 0 then { m with cells := removeCell i m.cells }
  else { m with cells := insertCell i b m.cells }

/-- `B[i..i+n)`. -/
def Memory.getRange (m : Memory) (i n : Nat) : List Byte := (List.range n).map fun k => m.get (i + k)

/-- `B[i..i+|bytes|) <- bytes`. -/
def Memory.setRange (m : Memory) (i : Nat) : List Byte → Memory
  | [] => m
  | b :: rest => (m.set i b).setRange (i + 1) rest

/-- Indices strictly rising. -/
def risingCells : List Host.Cell → Bool
  | [] => true
  | [_] => true
  | c :: d :: rest => decide (c.1 < d.1) && risingCells (d :: rest)

/-- The canonical form: indices strictly rising, and over a zero fill no zero listed. -/
def Memory.wf (m : Memory) : Bool :=
  risingCells m.cells && (decide (m.fill ≠ .zero) || m.cells.all fun c => decide (c.2 ≠ 0))

/-- Every listed index lies below a capacity. -/
def Memory.below (m : Memory) (capacity : Nat) : Bool := m.cells.all fun c => decide (c.1 < capacity)

/-! ### Registers and spaces of the state -/

/-- The slot an operand names (R20). -/
def State.slot (s : State) : Slot → Envelope
  | .rxe => s.rxe
  | .txe => s.txe

/-- Replace a slot. -/
def State.withSlot (s : State) (e : Slot) (v : Envelope) : State :=
  match e with
  | .rxe => { s with rxe := v }
  | .txe => { s with txe := v }

/-- How often a slot's unspecified bytes have been drawn. -/
def State.draws (s : State) : Slot → Nat
  | .rxe => s.rxDraws
  | .txe => s.txDraws

/-- Count one more draw. -/
def State.bumpDraws (s : State) (e : Slot) : State :=
  match e with
  | .rxe => { s with rxDraws := s.rxDraws + 1 }
  | .txe => { s with txDraws := s.txDraws + 1 }

/-- The space that a slot's `data` is (R44). -/
def dataSpace : Slot → Space
  | .rxe => .rxeData
  | .txe => .txeData

/-- The capacities of R44. -/
def Space.capacity (c : Config) : Space → Nat
  | .rxeData => c.cap
  | .txeData => c.cap
  | .ctxPayload => c.cap
  | .ctxHdr => shdr c

/-- The buffer a space is. -/
def State.memory (s : State) : Space → Memory
  | .rxeData => s.rxe.data
  | .txeData => s.txe.data
  | .ctxPayload => s.ctx.payload
  | .ctxHdr => s.ctx.hdr

/-- Replace the buffer of a space. -/
def State.withMemory (s : State) (sp : Space) (m : Memory) : State :=
  match sp with
  | .rxeData => { s with rxe := { s.rxe with data := m } }
  | .txeData => { s with txe := { s.txe with data := m } }
  | .ctxPayload => { s with ctx := { s.ctx with payload := m } }
  | .ctxHdr => { s with ctx := { s.ctx with hdr := m } }

/-- Bounds-checked `B[i..i+n)` (R13, R70). -/
def State.readBytes (s : State) (sp : Space) (i n : Nat) : Except Fault (List Byte) :=
  if i + n ≤ sp.capacity s.cfg then .ok ((s.memory sp).getRange i n) else .error (.outOfBounds sp (i + n))

/-- Bounds-checked `B[i..i+|bytes|) <- bytes` (R13, R70): the test comes before any byte is written. -/
def State.writeBytes (s : State) (sp : Space) (i : Nat) (bytes : List Byte) : Except Fault State :=
  if i + bytes.length ≤ sp.capacity s.cfg then .ok (s.withMemory sp ((s.memory sp).setRange i bytes))
  else .error (.outOfBounds sp (i + bytes.length))

/-! ### Ending an operation -/

/-- Go on with a value, or stop with its fault. -/
def orFault {α : Type} (x : Except Fault α) (k : α → Answer) : Answer :=
  match x with
  | .ok a => k a
  | .error f => .fault f

/-- The preconditions of an operation, in order: the first that fails refuses it (R13, R283). -/
def requireAll : List (Bool × Refusal) → Answer → Answer
  | [], k => k
  | (holds, why) :: rest, k => if holds then requireAll rest k else .refused why

/-- An operation ends: its output lines are driven. -/
def State.answer (s : State) (r : Response) : Answer := .next { s with resp := some r }

/-- The rejection of R262, the block's one exception: `return ok = 0`, nothing else written. It has no handler and no return (R272). -/
def State.reject (s : State) (cause : Cause) : Answer := s.answer (.rejected cause)

/-- Rejection inside `FEED`: the fail-closed reset of `CTX` goes with it (R202, R262). -/
def State.rejectFeed (s : State) (cause : Cause) : Answer := State.reject { s with ctx := .zero } cause

/-! ### Invariants an operation requires -/

/-- R28. -/
def Envelope.fits (c : Config) (v : Envelope) : Bool := decide (v.dataLength ≤ c.cap)

/-- R40, first part. -/
def Iel.fits (c : Config) (l : Iel) : Bool := decide (l.size ≤ l.cap) && decide (l.cap ≤ c.cap)

/-- R37. -/
def Ctx.consistent (c : Config) (x : Ctx) : Bool :=
  match x.phase with
  | .awaitingHeader => decide (x.count < shdr c)
  | .awaitingPayload =>
    decide (1 ≤ x.declLen) && decide (x.declLen ≤ c.cap) && decide (shdr c ≤ x.count) && decide (x.count < shdr c + x.declLen)

/-- The rules hold for well-formed configurations only (R11). -/
def State.configOk (s : State) : Bool × Refusal := (s.cfg.wf, .illFormedConfig)

/-- An operation on a slot requires the envelope invariant (R28). -/
def State.slotOk (s : State) (e : Slot) : Bool × Refusal := ((s.slot e).fits s.cfg, .brokenEnvelope e)

/-- A list operation requires the list invariant (R40). -/
def State.listOk (s : State) : Bool × Refusal := (s.iel.fits s.cfg, .brokenList)

/-- `FEED` requires the context invariant (R37). -/
def State.contextOk (s : State) : Bool × Refusal := (s.ctx.consistent s.cfg, .brokenContext)

/-- The tag can be presented at the port (R117). -/
def State.tagOk (s : State) (tag : Nat) : Bool × Refusal := (s.cfg.tagFits tag, .tagNotPresentable)

/-! ### Whole envelopes -/

/-- The header fields of a slot. -/
def Envelope.header (v : Envelope) : Header :=
  { cookie := v.cookie, unitId := v.unitId, serviceId := v.serviceId, messageId := v.messageId, checksum := v.checksum }

/-- `E.data[0..E.dataLength)` (R27). -/
def State.payload (s : State) (e : Slot) : Except Fault (List Byte) :=
  s.readBytes (dataSpace e) 0 (s.slot e).dataLength

/-- A frame is delivered into a slot (R200, R225): all header fields, the length and the payload are written.
FREE VALUE: every byte of `data` beyond the payload is unspecified afterwards (R29), a fresh draw of the slot. -/
def State.deliver (s : State) (e : Slot) (h : Header) (payload : List Byte) : Except Fault State :=
  let fresh : Envelope :=
    { cookie := h.cookie, unitId := h.unitId, serviceId := h.serviceId, messageId := h.messageId, checksum := h.checksum,
      dataLength := payload.length, data := { cells := [], fill := .free e (s.draws e) } }
  ((s.withSlot e fresh).bumpDraws e).writeBytes (dataSpace e) 0 payload

/-! ### The port -/

/-- The oldest transaction presented, and the state once the port has taken it. -/
def State.fetch (s : State) : Option (Transaction × State) :=
  match s.port with
  | [] => none
  | t :: rest => some (t, { s with port := rest })

/-- A transaction without an operation is refused (R108). -/
def refusalOf : DecodeError → Refusal
  | .reservedCode op => .reservedCode op
  | .reservedSelector f => .reservedSelector f

end Sys2Proof.Machine
end

