-- ==== Sys2Proof/Machine/EnvelopeUnit.lean ====
section
/-! DEFINITION. The envelope unit and the serialiser (`42_envelope.md`): `ENV.CLR`, `ENV.SET`, `ENV.SETLEN`, `SER`, `SERS`. -/

namespace Sys2Proof.Machine

/-- `ENV.CLR e` (R172): all of the slot, `IEL` untouched. -/
def execEnvClr (e : Slot) (s : State) : Answer :=
  requireAll [s.configOk, s.slotOk e] ((s.withSlot e .zero).answer (.okBit true))

/-- One header field of an envelope is written; an 8-bit field takes `v[7:0]` (R174). -/
def Envelope.setField (x : Envelope) (f : HeaderField) (v : Half) : Envelope :=
  match f with
  | .cookie => { x with cookie := loByte v }
  | .unitId => { x with unitId := loByte v }
  | .serviceId => { x with serviceId := v }
  | .messageId => { x with messageId := loByte v }
  | .checksum => { x with checksum := loByte v }

/-- `ENV.SET e, f, v` (R174). -/
def execEnvSet (e : Slot) (f : HeaderField) (v : Half) (s : State) : Answer :=
  requireAll [s.configOk, s.slotOk e] ((s.withSlot e ((s.slot e).setField f v)).answer (.okBit true))

/-- `ENV.SETLEN` (R176): the slot the list is rooted at takes the list's size. -/
def execEnvSetLen (s : State) : Answer :=
  requireAll [s.configOk, s.listOk, s.slotOk s.iel.slot] <|
    (s.withSlot s.iel.slot { s.slot s.iel.slot with dataLength := s.iel.size }).answer (.okBit true)

/-- `SER e` (R180): the stored checksum is emitted as it is. -/
def execSer (e : Slot) (s : State) : Answer :=
  requireAll [s.configOk, s.slotOk e] <|
    orFault (s.payload e) fun p => s.answer (.buffer (frameBytes (s.slot e).header p))

/-- `SERS e` (R181). -/
def execSers (e : Slot) (s : State) : Answer :=
  requireAll [s.configOk, s.slotOk e] <|
    orFault (s.payload e) fun p => s.answer (.buffer (streamBytes s.cfg (s.slot e).header p))

end Sys2Proof.Machine
end

