-- ==== Sys2Proof/Machine/Checksum.lean ====
section
/-! DEFINITION. The checksum and endian unit (`40_checksum_endian.md`): `CSUM`, `H2N16`, `N2H16`, `CKS.CALC`, `CKS.VFY`, `CKS.SEAL`. -/

namespace Sys2Proof.Machine

/-! ### CSUM -/

/-- The bytes a byte-serial checksum covers, in order (R142). -/
def coveredBytes (cookie unitId : Byte) (serviceId : Half) (messageId : Byte) (payload : List Byte) : List Byte :=
  [cookie, unitId, hiByte serviceId, loByte serviceId, messageId] ++ payload

/-- `CSUM_ADD` (R137): the sum of the covered bytes modulo 256. -/
def csumAdd (cookie unitId : Byte) (serviceId : Half) (messageId : Byte) (payload : List Byte) : Byte :=
  BitVec.ofNat 8
    (cookie.toNat + unitId.toNat + (hiByte serviceId).toNat + (loByte serviceId).toNat + messageId.toNat +
      (payload.map BitVec.toNat).sum)

/-- `CSUM_XOR` (R137). -/
def csumXor (cookie unitId : Byte) (serviceId : Half) (messageId : Byte) (payload : List Byte) : Byte :=
  cookie ^^^ unitId ^^^ hiByte serviceId ^^^ loByte serviceId ^^^ messageId ^^^ payload.foldl (· ^^^ ·) 0

theorem twoPow_ne_zero {k : Nat} (hk : k < 8) (b : Byte) : b ^^^ BitVec.twoPow 8 k ≠ b := by
  intro h
  have h1 := congrArg (fun v : Byte => v.getLsbD k) h
  simp [hk] at h1

theorem toNat_sum_modify (f : Byte → Byte) :
    ∀ (p : List Byte) (i : Nat) (hi : i < p.length),
      ((p.modify i f).map BitVec.toNat).sum + (p[i]).toNat = (p.map BitVec.toNat).sum + (f p[i]).toNat
  | b :: p, 0, _ => by simp; omega
  | b :: p, i + 1, hi => by
    have := toNat_sum_modify f p i (by simpa using hi)
    simp; omega

theorem csumAdd_sensitive : PayloadBitSensitive csumAdd := by
  intro c u s m p i k hi hk h
  have hsum := toNat_sum_modify (· ^^^ BitVec.twoPow 8 k) p i hi
  apply twoPow_ne_zero hk p[i]
  apply BitVec.eq_of_toNat_eq
  have h1 := congrArg BitVec.toNat h
  have l1 := (p[i]).isLt
  have l2 := (p[i] ^^^ BitVec.twoPow 8 k).isLt
  simp only [csumAdd, BitVec.toNat_ofNat] at h1
  omega

theorem foldl_xor_start : ∀ (p : List Byte) (a : Byte), p.foldl (· ^^^ ·) a = a ^^^ p.foldl (· ^^^ ·) 0
  | [], a => by simp
  | b :: p, a => by
    simp only [List.foldl_cons]
    rw [foldl_xor_start p (a ^^^ b), foldl_xor_start p (0 ^^^ b)]
    simp [BitVec.xor_assoc]

theorem xor_fold_modify (d : Byte) :
    ∀ (p : List Byte) (i : Nat), i < p.length →
      (p.modify i (· ^^^ d)).foldl (· ^^^ ·) 0 = p.foldl (· ^^^ ·) 0 ^^^ d
  | b :: p, 0, _ => by
    simp only [List.modify_zero_cons, List.foldl_cons]
    rw [foldl_xor_start p (0 ^^^ (b ^^^ d)), foldl_xor_start p (0 ^^^ b)]
    ac_rfl
  | b :: p, i + 1, hi => by
    have ih := xor_fold_modify d p i (by simpa using hi)
    simp only [List.modify_succ_cons, List.foldl_cons]
    rw [foldl_xor_start _ (0 ^^^ b), foldl_xor_start p (0 ^^^ b), ih]
    ac_rfl

theorem csumXor_sensitive : PayloadBitSensitive csumXor := by
  intro c u s m p i k hi hk h
  simp only [csumXor, xor_fold_modify _ p i hi, ← BitVec.xor_assoc] at h
  exact twoPow_ne_zero hk _ h

/-- `CSUM_ADD` as a legal function. -/
def CsumFn.additive : CsumFn := ⟨csumAdd, csumAdd_sensitive⟩

/-- `CSUM_XOR` as a legal function. -/
def CsumFn.exclusiveOr : CsumFn := ⟨csumXor, csumXor_sensitive⟩

/-- The legal function a configuration names (R9). -/
def csumFn : CsumKind → CsumFn
  | .additive => CsumFn.additive
  | .exclusiveOr => CsumFn.exclusiveOr
  | .uninterpreted k => @Config.freeCsum ⟨CsumFn.additive⟩ k

/-- `CSUM` of a header and a payload (R134): the header's checksum byte is not an input. -/
def checksumOf (c : Config) (h : Header) (payload : List Byte) : Byte :=
  (csumFn c.csum).fn h.cookie h.unitId h.serviceId h.messageId payload

/-! ### The operations -/

/-- `H2N16 v` (R131). -/
def execH2N16 (v : Half) (s : State) : Answer :=
  requireAll [s.configOk] (s.answer (.scalar (swapBytes v)))

/-- `N2H16 v` (R132). -/
def execN2H16 (v : Half) (s : State) : Answer :=
  requireAll [s.configOk] (s.answer (.scalar (swapBytes v)))

/-- `CKS.CALC e` (R138). -/
def execCksCalc (e : Slot) (s : State) : Answer :=
  requireAll [s.configOk, s.slotOk e] <|
    orFault (s.payload e) fun p =>
      s.answer (.scalar ((checksumOf s.cfg (s.slot e).header p).zeroExtend 16))

/-- `CKS.VFY e` (R139): the answer of the comparison is `ok` itself, with the ghost cause of R265 when it is 0. -/
def execCksVfy (e : Slot) (s : State) : Answer :=
  requireAll [s.configOk, s.slotOk e] <|
    orFault (s.payload e) fun p =>
      if checksumOf s.cfg (s.slot e).header p = (s.slot e).checksum then s.answer (.okBit true)
      else s.reject .csumMismatch

/-- `CKS.SEAL e` (R140). -/
def execCksSeal (e : Slot) (s : State) : Answer :=
  requireAll [s.configOk, s.slotOk e] <|
    orFault (s.payload e) fun p =>
      (s.withSlot e { s.slot e with checksum := checksumOf s.cfg (s.slot e).header p }).answer (.okBit true)

end Sys2Proof.Machine
end

