-- ==== Sys2Proof/Machine/Framer.lean ====
section
/-! DEFINITION. The incremental framer (`43_framer.md`): `CTX.INIT` and `FEED`, one function per step of section 5. -/

namespace Sys2Proof.Machine

/-- `CTX.INIT` (R190). It asks nothing of the old context. -/
def execCtxInit (s : State) : Answer :=
  requireAll [s.configOk] (State.answer { s with ctx := .zero } (.okBit true))

/-- Completion (R196, R199, R200): the checksum of the stored bytes is verified, then the envelope is emitted and `CTX` zeroed. -/
def feedComplete (s : State) : Answer :=
  orFault (s.readBytes .ctxHdr s.cfg.lenfW hdrLen) fun h =>
    orFault (s.readBytes .ctxPayload 0 s.ctx.declLen) fun p =>
      if checksumOf s.cfg (headerOf h) p ≠ (headerOf h).checksum then s.rejectFeed .csumMismatch
      else orFault (s.deliver .rxe (headerOf h) p) fun s1 => State.answer { s1 with ctx := .zero } (.okBit true)

/-- The declared length is known (R197 second test, R198). -/
def feedDeclared (d : Nat) (s : State) : Answer :=
  if d > s.cfg.cap then s.rejectFeed .lenOverflow
  else
    let s1 : State := { s with ctx := { s.ctx with declLen := d } }
    if d > 0 then State.answer { s1 with ctx := { s1.ctx with phase := .awaitingPayload } } (.okBit false)
    else feedComplete s1

/-- The stream header is complete: length decode and the bias test (R197). -/
def feedHeaderDone (s : State) : Answer :=
  orFault (s.readBytes .ctxHdr 0 s.cfg.lenfW) fun lenf =>
    if beVal lenf < s.cfg.lenfBias then s.rejectFeed .undersize
    else feedDeclared (beVal lenf - s.cfg.lenfBias) s

/-- `CTX.count <- CTX.count + 1`. -/
def countByte (s : State) : State := { s with ctx := { s.ctx with count := s.ctx.count + 1 } }

/-- `FEED` in `AwaitingHeader` (R195). -/
def feedHeader (b : Byte) (s : State) : Answer :=
  orFault (s.writeBytes .ctxHdr s.ctx.count [b]) fun s1 =>
    if (countByte s1).ctx.count < shdr s.cfg then (countByte s1).answer (.okBit false)
    else feedHeaderDone (countByte s1)

/-- `FEED` in `AwaitingPayload` (R201). -/
def feedPayload (b : Byte) (s : State) : Answer :=
  orFault (s.writeBytes .ctxPayload (s.ctx.count - shdr s.cfg) [b]) fun s1 =>
    if (countByte s1).ctx.count < shdr s.cfg + s.ctx.declLen then (countByte s1).answer (.okBit false)
    else feedComplete (countByte s1)

/-- `FEED b` (R191), which asks for the context invariant (R37).
DEDUCED (log entry 10): it is an operation on `RXE` too, so it asks for that of `RXE` (R28), in mid-frame as well. -/
def execFeed (b : Byte) (s : State) : Answer :=
  requireAll [s.configOk, s.contextOk, s.slotOk .rxe] <|
    match s.ctx.phase with
    | .awaitingHeader => feedHeader b s
    | .awaitingPayload => feedPayload b s

end Sys2Proof.Machine
end

