-- ==== Sys2Proof/Machine/IeCodec.lean ====
section
/-! DEFINITION. The Information-Element codec (`41_ie_codec.md`): `IE.NEW`, `IE.ADD`, `IE.SIZE`, `IE.GET`. -/

namespace Sys2Proof.Machine

/-- `IE.NEW e, n` (R150, R28): only `IEL` is written. It asks nothing of the old list. -/
def execIeNew (e : Slot) (n : Nat) (s : State) : Answer :=
  requireAll [s.configOk, s.slotOk e, (decide (n ≤ s.cfg.cap), .capacityBeyondBuffer)] <|
    State.answer { s with iel := { slot := e, cap := n, size := 0 } } (.okBit true)

/-- The append step of R152. -/
def appendEntry (tag : Nat) (value : List Byte) (s : State) : Answer :=
  orFault (s.writeBytes (dataSpace s.iel.slot) s.iel.size (tlvBytes s.cfg tag value)) fun s1 =>
    State.answer { s1 with iel := { s1.iel with size := s.iel.size + ovh s.cfg + value.length } } (.okBit true)

/-- `IE.ADD tag, ibuf, n` (R151 to R154): the capacity test comes before any byte is written. -/
def execIeAdd (tag : Nat) (ibuf : List Byte) (n : Nat) (s : State) : Answer :=
  requireAll
    [s.configOk, s.listOk, s.slotOk s.iel.slot, s.tagOk tag, (s.cfg.lengthFits n, .lengthNotEncodable),
      (decide (n ≤ ibuf.length), .operandTooShort)] <|
    if s.iel.size + ovh s.cfg + n > s.iel.cap then s.reject .ieCapacity
    else appendEntry tag (ibuf.take n) s

/-- The `r` lines for a size (R155). FREE VALUE for a size that 16 bits cannot hold (log entry 6). -/
def sizeResult (size : Nat) : Half := if size < 2 ^ 16 then BitVec.ofNat 16 size else Config.freeSize size

/-- `IE.SIZE` (R155). -/
def execIeSize (s : State) : Answer :=
  requireAll [s.configOk, s.listOk] (s.answer (.scalar (sizeResult s.iel.size)))

/-- `IE.GET e, tag, n` (R156 to R161): no state is written, and on `ok = 0` no output operand either. -/
def execIeGet (e : Slot) (tag n : Nat) (s : State) : Answer :=
  requireAll [s.configOk, s.slotOk e, s.tagOk tag] <|
    orFault (s.payload e) fun p =>
      match ieFind s.cfg p tag n (ieFuel s.cfg p) 0 with
      | some value => s.answer (.buffer value)
      | none => s.reject .ieAbsent

end Sys2Proof.Machine
end

