-- ==== Sys2Proof/Machine/Parser.lean ====
section
/-! DEFINITION. The one-shot buffer parser (`44_parser.md`): `PARSE`. -/

namespace Sys2Proof.Machine

/-- The checksum test and the writes of `PARSE` (R223 to R225), for a packet of legal length. -/
def parseFrame (e : Slot) (packet : List Byte) (s : State) : Answer :=
  let h := headerOf packet
  let p := packet.drop hdrLen
  if s.cfg.parseVerify = true ∧ checksumOf s.cfg h p ≠ h.checksum then s.reject .csumMismatch
  else orFault (s.deliver e h p) fun s1 => s1.answer (.okBit true)

/-- `PARSE e, ibuf, n` (R220): the tests in the order of R227, all before any write. -/
def execParse (e : Slot) (ibuf : List Byte) (n : Nat) (s : State) : Answer :=
  requireAll [s.configOk, s.slotOk e, (decide (n ≤ ibuf.length), .operandTooShort)] <|
    if n < hdrLen then s.reject .undersize
    else if n - hdrLen > s.cfg.cap then s.reject .lenOverflow
    else parseFrame e (ibuf.take n) s

end Sys2Proof.Machine
end

