-- ==== Sys2Proof/Machine/Dispatch.lean ====
section
/-! DEFINITION. One arm per operation of `30_encoding.md` R118. -/

namespace Sys2Proof.Machine

def exec (i : Instr) (s : State) : Host.Outcome State Fault Refusal :=
  match i with
  | .ctxInit => Sys2Proof.Machine.execCtxInit s
  | .feed b => Sys2Proof.Machine.execFeed b s
  | .parse e ibuf n => Sys2Proof.Machine.execParse e ibuf n s
  | .envClr e => Sys2Proof.Machine.execEnvClr e s
  | .envSet e f v => Sys2Proof.Machine.execEnvSet e f v s
  | .envSetLen => Sys2Proof.Machine.execEnvSetLen s
  | .ieNew e n => Sys2Proof.Machine.execIeNew e n s
  | .ieAdd tag ibuf n => Sys2Proof.Machine.execIeAdd tag ibuf n s
  | .ieSize => Sys2Proof.Machine.execIeSize s
  | .ieGet e tag n => Sys2Proof.Machine.execIeGet e tag n s
  | .h2n16 v => Sys2Proof.Machine.execH2N16 v s
  | .n2h16 v => Sys2Proof.Machine.execN2H16 v s
  | .cksCalc e => Sys2Proof.Machine.execCksCalc e s
  | .cksVfy e => Sys2Proof.Machine.execCksVfy e s
  | .cksSeal e => Sys2Proof.Machine.execCksSeal e s
  | .ser e => Sys2Proof.Machine.execSer e s
  | .sers e => Sys2Proof.Machine.execSers e s

end Sys2Proof.Machine
end

