-- ==== Sys2Proof/Machine/Step.lean ====
section
/-! DEFINITION. One step: the port takes its oldest transaction, which runs to completion (`20_memory.md` R60). -/

namespace Sys2Proof.Machine

/-- One step. With nothing presented at the port the block is idle with all state held (R282, R291). -/
def step (s : State) : Host.Outcome State Fault Refusal :=
  match s.fetch with
  | none => .next s
  | some (t, s1) =>
    match decode t with
    | .ok i => exec i s1
    | .error why => .refused (refusalOf why)

/-- The state with a table word's transaction presented as the next one (log entry 8). -/
def State.withFetchWord (s : State) (nbits w : Nat) : State :=
  { s with port := Transaction.ofTableWord nbits w :: s.port }

end Sys2Proof.Machine
end

