-- ==== Sys2Proof/Machine/Builders.lean ====
section
/-! DEFINITION. The message builders as pseudo-operations (`45_builders.md`): fixed sequences of operations, with no code of their own. -/

namespace Sys2Proof.Machine

/-- Operations issued one after another, with the `ok` of each; a fault or a refusal ends the run (R60). -/
def runAll : List Instr → State → Host.Outcome (List Bool × State) Fault Refusal
  | [], s => .next ([], s)
  | i :: rest, s =>
    match exec i s with
    | .next s1 =>
      match runAll rest s1 with
      | .next (oks, t) => .next ((s1.resp.map Response.ok).getD false :: oks, t)
      | .fault f => .fault f
      | .refused r => .refused r
    | .fault f => .fault f
    | .refused r => .refused r

/-- The part of `BUILD` before the elements (R236). -/
def buildHead (c : Config) (e : Slot) (unit : Byte) (svc : Half) (msg : Byte) : List Instr :=
  [.envClr e, .envSet e .unitId (unit.zeroExtend 16), .envSet e .serviceId svc, .envSet e .messageId (msg.zeroExtend 16),
    .ieNew e c.cap]

/-- The `IE.ADD` of one element. -/
def addElement (tv : Nat × List Byte) : Instr := .ieAdd tv.1 tv.2 tv.2.length

/-- The whole expansion of R236, for a build none of whose additions fails. -/
def buildOps (c : Config) (e : Slot) (unit : Byte) (svc : Half) (msg : Byte) (ies : List (Nat × List Byte)) : List Instr :=
  buildHead c e unit svc msg ++ ies.map addElement ++ [.envSetLen]

/-- The additions of a build: it stops at the first `ok = 0`, and after the last it issues `ENV.SETLEN` (R236, R237). -/
def buildTail : List (Nat × List Byte) → State → Host.Outcome (Bool × State) Fault Refusal
  | [], s =>
    match exec .envSetLen s with
    | .next t => .next (true, t)
    | .fault f => .fault f
    | .refused r => .refused r
  | tv :: rest, s =>
    match exec (addElement tv) s with
    | .next s1 => if (s1.resp.map Response.ok).getD false then buildTail rest s1 else .next (false, s1)
    | .fault f => .fault f
    | .refused r => .refused r

/-- `BUILD e, unit, svc, msg, ies` (R236): the builder's result bit and the state it leaves. -/
def build (e : Slot) (unit : Byte) (svc : Half) (msg : Byte) (ies : List (Nat × List Byte)) (s : State) :
    Host.Outcome (Bool × State) Fault Refusal :=
  match runAll (buildHead s.cfg e unit svc msg) s with
  | .next (_, s1) => buildTail ies s1
  | .fault f => .fault f
  | .refused r => .refused r

/-- The two forms of `SEND` (R248): a stream frame, or a packet for a transport that frames packets by its own means. -/
inductive SendForm where
  | stream
  | packet
deriving DecidableEq, Repr

/-- `SEND e` (R248). -/
def sendOps (form : SendForm) (e : Slot) : List Instr :=
  match form with
  | .stream => [.cksSeal e, .sers e]
  | .packet => [.cksSeal e, .ser e]

/-! ### The builders the source names -/

/-- A builder of R239 with the parameters that the table gives its payload.
The elements of an alert request are at least one (R241). A registration carries an RFPI or, with a `null` target, nothing (R242).
Where the table says nothing of the payload, the elements are the caller's. -/
inductive Builder where
  | alertNotifyRequest (first : Nat × List Byte) (more : List (Nat × List Byte))
  | alertNotifyResponse (ies : List (Nat × List Byte))
  | deviceRegistrationRequest (rfpi : Option (List Byte))
  | deviceDeregistrationRequest
  | rawDataSendRequest (raw : List Byte)
  | systemBatteryMeasureRequest (ies : List (Nat × List Byte))
  | systemResetRequest
  | rssiGet
  | tamperNotifyRequest (ies : List (Nat × List Byte))
  | tamperNotifyResponse (ies : List (Nat × List Byte))
  | voiceCallStartRequest (ies : List (Nat × List Byte))
  | voiceCallStartResponse (ies : List (Nat × List Byte))
  | voiceCallEndRequest (ies : List (Nat × List Byte))
  | voiceCallEndResponse (ies : List (Nat × List Byte))
deriving DecidableEq, Repr

/-- The first column of R239's table. -/
def Builder.name : Builder → BuilderName
  | .alertNotifyRequest _ _ => .alertNotifyRequest
  | .alertNotifyResponse _ => .alertNotifyResponse
  | .deviceRegistrationRequest _ => .deviceRegistrationRequest
  | .deviceDeregistrationRequest => .deviceDeregistrationRequest
  | .rawDataSendRequest _ => .rawDataSendRequest
  | .systemBatteryMeasureRequest _ => .systemBatteryMeasureRequest
  | .systemResetRequest => .systemResetRequest
  | .rssiGet => .rssiGet
  | .tamperNotifyRequest _ => .tamperNotifyRequest
  | .tamperNotifyResponse _ => .tamperNotifyResponse
  | .voiceCallStartRequest _ => .voiceCallStartRequest
  | .voiceCallStartResponse _ => .voiceCallStartResponse
  | .voiceCallEndRequest _ => .voiceCallEndRequest
  | .voiceCallEndResponse _ => .voiceCallEndResponse

/-- The service column of R239's table; for RSSI-Get it is not stated. -/
def serviceOf : BuilderName → Option ServiceName
  | .alertNotifyRequest | .alertNotifyResponse => some .alert
  | .deviceRegistrationRequest | .deviceDeregistrationRequest => some .deviceManagement
  | .rawDataSendRequest => some .funRawData
  | .systemBatteryMeasureRequest | .systemResetRequest => some .system
  | .rssiGet => none
  | .tamperNotifyRequest | .tamperNotifyResponse => some .tamper
  | .voiceCallStartRequest | .voiceCallStartResponse | .voiceCallEndRequest | .voiceCallEndResponse => some .voiceCall

/-- The `SVC_` constant of a builder: builders of one service share it. -/
def builderService (name : BuilderName) : Half :=
  match serviceOf name with
  | some service => Config.serviceConstant service
  | none => Config.unstatedService name

/-- The payload column of R239's table (R240 to R243). -/
def Builder.elements (c : Config) : Builder → List (Nat × List Byte)
  | .alertNotifyRequest first more => first :: more
  | .deviceRegistrationRequest none => []
  | .deviceRegistrationRequest (some rfpi) => [((Config.rfpiTag c.tagW).toNat, rfpi)]
  | .rawDataSendRequest raw => [((Config.rawDataTag c.tagW).toNat, raw)]
  | .deviceDeregistrationRequest | .systemResetRequest | .rssiGet => []
  | .alertNotifyResponse ies | .systemBatteryMeasureRequest ies | .tamperNotifyRequest ies | .tamperNotifyResponse ies
  | .voiceCallStartRequest ies | .voiceCallStartResponse ies | .voiceCallEndRequest ies | .voiceCallEndResponse ies => ies

/-- The builders that R240 and R242 give no payload. -/
def Builder.payloadless : Builder → Bool
  | .deviceRegistrationRequest none | .deviceDeregistrationRequest | .systemResetRequest | .rssiGet => true
  | .deviceRegistrationRequest (some _) | .alertNotifyRequest _ _ | .alertNotifyResponse _ | .rawDataSendRequest _
  | .systemBatteryMeasureRequest _ | .tamperNotifyRequest _ | .tamperNotifyResponse _ | .voiceCallStartRequest _
  | .voiceCallStartResponse _ | .voiceCallEndRequest _ | .voiceCallEndResponse _ => false

/-- A builder of R239: `BUILD` with its service and message constants and its elements. -/
def buildNamed (builder : Builder) (e : Slot) (unit : Byte) (s : State) : Host.Outcome (Bool × State) Fault Refusal :=
  build e unit (builderService builder.name) (Config.builderMessage builder.name) (builder.elements s.cfg) s

end Sys2Proof.Machine
end

