-- ==== Sys2Proof/Safety.lean ====
section
/-! DEFINITION. The terms in which claims are made: payloads, equivalence of envelopes, the invariant, runs, and who writes what. -/

namespace Sys2Proof.Machine

/-- `E.data[0..E.dataLength)`, the payload of an envelope (`10_state.md` R27). -/
def Envelope.payload (v : Envelope) : List Byte := v.data.getRange 0 v.dataLength

/-- `A ≈ B` (`00_scope.md` R16): equal fields and equal payload bytes. Bytes beyond `dataLength` do not count. -/
def Envelope.equiv (a b : Envelope) : Prop :=
  a.header = b.header ∧ a.dataLength = b.dataLength ∧ ∀ i, i < a.dataLength → a.data.get i = b.data.get i

/-- `CSUM` of an envelope under a configuration: the four header fields of R134 and the payload, not the checksum field. -/
def Envelope.csum (c : Config) (v : Envelope) : Byte :=
  (csumFn c.csum).fn v.cookie v.unitId v.serviceId v.messageId v.payload

/-- `CSUM` of a header and a payload outside any slot. -/
def frameCsum (c : Config) (h : Header) (payload : List Byte) : Byte :=
  (csumFn c.csum).fn h.cookie h.unitId h.serviceId h.messageId payload

/-- The envelope holds a decoded frame: these header fields and this payload (R91, R205). -/
def Envelope.holds (v : Envelope) (h : Header) (payload : List Byte) : Prop :=
  v.header = h ∧ v.dataLength = payload.length ∧ v.payload = payload

/-- Nothing of the block but one slot differs, and no byte has been drawn. -/
def keepsAllButSlot (e : Slot) (s t : State) : Prop :=
  t.cfg = s.cfg ∧ t.ctx = s.ctx ∧ t.iel = s.iel ∧ t.port = s.port ∧
    (∀ d, d ≠ e → t.slot d = s.slot d) ∧ (∀ d, t.draws d = s.draws d)

/-- A buffer in canonical form with no byte listed beyond its capacity. -/
def Memory.sound (m : Memory) (capacity : Nat) : Prop := m.wf = true ∧ m.below capacity = true

/-- The invariant of the block: a legal configuration (R11), both envelopes within capacity (R28), the list within its slot (R40),
a consistent context (R37) whose `declLen` is within capacity in either phase (R34), and the four buffers sound (R13, R44). -/
structure State.Inv (s : State) : Prop where
  config : s.cfg.wf = true
  rxe : s.rxe.dataLength ≤ s.cfg.cap
  txe : s.txe.dataLength ≤ s.cfg.cap
  list : s.iel.size ≤ s.iel.cap ∧ s.iel.cap ≤ s.cfg.cap
  context : s.ctx.consistent s.cfg = true
  rxeData : s.rxe.data.sound s.cfg.cap
  txeData : s.txe.data.sound s.cfg.cap
  hdr : s.ctx.hdr.sound (shdr s.cfg)
  payload : s.ctx.payload.sound s.cfg.cap
  declared : s.ctx.declLen ≤ s.cfg.cap

/-- The bytes of a stream, one `FEED` each, in order (R67). -/
def feedAll (bytes : List Byte) (s : State) : Host.Outcome (List Bool × State) Fault Refusal := runAll (bytes.map .feed) s

/-- What a `FEED` of `b` makes of the buffered header: byte `count` is `b` (R195). -/
def headerWith (s : State) (b : Byte) : Memory := s.ctx.hdr.set s.ctx.count b

/-- The declared length field of a buffered stream header (R197). -/
def lengthValue (c : Config) (hdr : Memory) : Nat := beVal (hdr.getRange 0 c.lenfW)

/-- The header fields of a buffered stream header (R196). -/
def headerFields (c : Config) (hdr : Memory) : Header := headerOf (hdr.getRange c.lenfW hdrLen)

/-- `FEED b` stores the last byte of a frame, whose stream header is then `hdr` and whose payload is `payload`:
either the header's last byte of a frame without payload (R198) or the last payload byte (R201). -/
def FrameEnds (s : State) (b : Byte) (hdr : Memory) (payload : List Byte) : Prop :=
  (s.ctx.phase = .awaitingHeader ∧ s.ctx.count + 1 = shdr s.cfg ∧ hdr = headerWith s b ∧
      lengthValue s.cfg hdr = s.cfg.lenfBias ∧ payload = []) ∨
    (s.ctx.phase = .awaitingPayload ∧ s.ctx.count + 1 = shdr s.cfg + s.ctx.declLen ∧ hdr = s.ctx.hdr ∧
      payload = (s.ctx.payload.set (s.ctx.count - shdr s.cfg) b).getRange 0 s.ctx.declLen)

/-- The frame's checksum byte is the checksum of the rest (R199). -/
def goodFrame (c : Config) (f : Header × List Byte) : Bool := decide (frameCsum c f.1 f.2 = f.1.checksum)

/-- Which operations write `CTX` (R69). -/
def writesCtx : Instr → Bool
  | .ctxInit | .feed _ => true
  | .parse _ _ _ | .envClr _ | .envSet _ _ _ | .envSetLen | .ieNew _ _ | .ieAdd _ _ _ | .ieSize | .ieGet _ _ _
  | .h2n16 _ | .n2h16 _ | .cksCalc _ | .cksVfy _ | .cksSeal _ | .ser _ | .sers _ => false

/-- Which operations write `IEL` (R69). -/
def writesIel : Instr → Bool
  | .ieNew _ _ | .ieAdd _ _ _ => true
  | .ctxInit | .feed _ | .parse _ _ _ | .envClr _ | .envSet _ _ _ | .envSetLen | .ieSize | .ieGet _ _ _
  | .h2n16 _ | .n2h16 _ | .cksCalc _ | .cksVfy _ | .cksSeal _ | .ser _ | .sers _ => false

/-- Which slot an operation writes, `list` being the slot that `IEL.slot` names (R69). -/
def writesSlot (list : Slot) : Instr → Option Slot
  | .feed _ => some .rxe
  | .parse e _ _ | .envClr e | .envSet e _ _ | .cksSeal e => some e
  | .envSetLen | .ieAdd _ _ _ => some list
  | .ctxInit | .ieNew _ _ | .ieSize | .ieGet _ _ _ | .h2n16 _ | .n2h16 _ | .cksCalc _ | .cksVfy _ | .ser _ | .sers _ => none

/-- A header field of an envelope; an 8-bit field is widened (R21 to R25). -/
def Envelope.field (v : Envelope) : HeaderField → Half
  | .cookie => v.cookie.zeroExtend 16
  | .unitId => v.unitId.zeroExtend 16
  | .serviceId => v.serviceId
  | .messageId => v.messageId.zeroExtend 16
  | .checksum => v.checksum.zeroExtend 16

/-- Which operations write a header field of the slot that they write (R69). -/
def writesField (f : HeaderField) : Instr → Bool
  | .feed _ | .parse _ _ _ | .envClr _ => true
  | .envSet _ g _ => decide (g = f)
  | .cksSeal _ => decide (f = .checksum)
  | .ctxInit | .envSetLen | .ieNew _ _ | .ieAdd _ _ _ | .ieSize | .ieGet _ _ _
  | .h2n16 _ | .n2h16 _ | .cksCalc _ | .cksVfy _ | .ser _ | .sers _ => false

/-- Which operations leave bytes of a slot unspecified (R29). -/
def mayDraw : Instr → Bool
  | .feed _ | .parse _ _ _ => true
  | .ctxInit | .envClr _ | .envSet _ _ _ | .envSetLen | .ieNew _ _ | .ieAdd _ _ _ | .ieSize | .ieGet _ _ _
  | .h2n16 _ | .n2h16 _ | .cksCalc _ | .cksVfy _ | .cksSeal _ | .ser _ | .sers _ => false

/-- Which operations write bytes of a slot's `data` (R69, R175). -/
def writesData : Instr → Bool
  | .feed _ | .parse _ _ _ | .envClr _ | .ieAdd _ _ _ => true
  | .ctxInit | .envSet _ _ _ | .envSetLen | .ieNew _ _ | .ieSize | .ieGet _ _ _
  | .h2n16 _ | .n2h16 _ | .cksCalc _ | .cksVfy _ | .cksSeal _ | .ser _ | .sers _ => false

/-- Which operations write a slot's `dataLength` (R69, R175). -/
def writesLength : Instr → Bool
  | .feed _ | .parse _ _ _ | .envClr _ | .envSetLen => true
  | .ctxInit | .envSet _ _ _ | .ieNew _ _ | .ieAdd _ _ _ | .ieSize | .ieGet _ _ _
  | .h2n16 _ | .n2h16 _ | .cksCalc _ | .cksVfy _ | .cksSeal _ | .ser _ | .sers _ => false

/-- Which operations read a slot's envelope and write no state (R69). -/
def readsSlot : Instr → Option Slot
  | .ieGet e _ _ | .cksCalc e | .cksVfy e | .ser e | .sers e => some e
  | .ctxInit | .feed _ | .parse _ _ _ | .envClr _ | .envSet _ _ _ | .envSetLen | .ieNew _ _ | .ieAdd _ _ _ | .ieSize
  | .h2n16 _ | .n2h16 _ | .cksSeal _ => none

/-- Which operations can return `ok = 0` (R119). -/
def mayFail : Instr → Bool
  | .feed _ | .parse _ _ _ | .ieAdd _ _ _ | .ieGet _ _ _ | .cksVfy _ => true
  | .ctxInit | .envClr _ | .envSet _ _ _ | .envSetLen | .ieNew _ _ | .ieSize | .h2n16 _ | .n2h16 _
  | .cksCalc _ | .cksSeal _ | .ser _ | .sers _ => false

/-- The causes that an operation can raise (R261). -/
def mayRaise : Instr → List Cause
  | .feed _ | .parse _ _ _ => [.undersize, .lenOverflow, .csumMismatch]
  | .ieAdd _ _ _ => [.ieCapacity]
  | .ieGet _ _ _ => [.ieAbsent]
  | .cksVfy _ => [.csumMismatch]
  | .ctxInit | .envClr _ | .envSet _ _ _ | .envSetLen | .ieNew _ _ | .ieSize | .h2n16 _ | .n2h16 _
  | .cksCalc _ | .cksSeal _ | .ser _ | .sers _ => []

/-- The operation touches nothing outside the receive group `CTX`, `RXE` (R63). -/
def receiveOnly : Instr → Bool
  | .ctxInit | .feed _ | .h2n16 _ | .n2h16 _ => true
  | .parse e _ _ | .envClr e | .envSet e _ _ | .ieGet e _ _ | .cksCalc e | .cksVfy e | .cksSeal e | .ser e | .sers e =>
    decide (e = .rxe)
  | .envSetLen | .ieAdd _ _ _ | .ieNew _ _ | .ieSize => false

/-- The operation touches nothing outside the transmit group `TXE`, `IEL`, `list` being the slot that `IEL.slot` names (R63). -/
def transmitOnly (list : Slot) : Instr → Bool
  | .h2n16 _ | .n2h16 _ | .ieSize => true
  | .parse e _ _ | .envClr e | .envSet e _ _ | .ieGet e _ _ | .cksCalc e | .cksVfy e | .cksSeal e | .ser e | .sers e
  | .ieNew e _ => decide (e = .txe)
  | .envSetLen | .ieAdd _ _ _ => decide (list = .txe)
  | .ctxInit | .feed _ => false

/-- An element that `IE.ADD` can encode (R100, R154). -/
def encodable (c : Config) (tv : Nat × List Byte) : Prop := c.tagFits tv.1 = true ∧ c.lengthFits tv.2.length = true

/-- A concatenation of TLV entries (R102). -/
def listBytes (c : Config) (ies : List (Nat × List Byte)) : List Byte := ies.flatMap fun tv => tlvBytes c tv.1 tv.2

/-- The value of the first element with a tag (R157). -/
def firstValue (ies : List (Nat × List Byte)) (tag : Nat) : Option (List Byte) :=
  (ies.find? fun tv => decide (tv.1 = tag)).map Prod.snd

end Sys2Proof.Machine
end

