-- ==== Sys2Proof/Certificates/Slice0/Obligations.lean ====
section
/-! DEFINITION. The statements about the block, from the spec's numbered rules. -/

open Sys2Proof Sys2Proof.Machine

/-! ### The port and the step -/

/-- Decoding the transaction that presents an operation gives the operation back, whatever its operands (R118). -/
def Obligations.DecodeInvertsEncode : Prop :=
  ∀ i : Instr, decode (encode i) = .ok i

/-- The seventeen codes of R118, every operand line at 0 (the numbering of the lines in a table word is the model's, log entry 8). -/
def Obligations.OpcodeTableWordsDecode : Prop :=
  decodeTableWord 8 0x00 = some .ctxInit ∧ decodeTableWord 8 0x01 = some (.feed 0) ∧
  decodeTableWord 8 0x02 = some (.parse .rxe [] 0) ∧ decodeTableWord 8 0x03 = some (.envClr .rxe) ∧
  decodeTableWord 8 0x04 = some (.envSet .rxe .cookie 0) ∧ decodeTableWord 8 0x05 = some .envSetLen ∧
  decodeTableWord 8 0x06 = some (.ieNew .rxe 0) ∧ decodeTableWord 8 0x07 = some (.ieAdd 0 [] 0) ∧
  decodeTableWord 8 0x08 = some .ieSize ∧ decodeTableWord 8 0x09 = some (.ieGet .rxe 0 0) ∧
  decodeTableWord 8 0x0A = some (.h2n16 0) ∧ decodeTableWord 8 0x0B = some (.n2h16 0) ∧
  decodeTableWord 8 0x0C = some (.cksCalc .rxe) ∧ decodeTableWord 8 0x0D = some (.cksVfy .rxe) ∧
  decodeTableWord 8 0x0E = some (.cksSeal .rxe) ∧ decodeTableWord 8 0x0F = some (.ser .rxe) ∧
  decodeTableWord 8 0x10 = some (.sers .rxe) ∧ decodeTableWord 8 0x11 = none

/-- R108: exactly the reserved codes and the reserved `ENV.SET` selectors have no operation, and a step refuses them. -/
def Obligations.ReservedEncodingsAreRefused : Prop :=
  (∀ t : Transaction, (∃ i, decode t = .ok i) ↔ t.op.toNat ≤ 0x10 ∧ (t.op = 0x04#5 → t.f.toNat ≤ 4)) ∧
  ∀ (s : State) (t : Transaction) (rest : List Transaction), s.port = t :: rest →
    (0x11 ≤ t.op.toNat → step s = .refused (.reservedCode t.op)) ∧
    (t.op = 0x04#5 → 5 ≤ t.f.toNat → step s = .refused (.reservedSelector t.f))

/-- R60: a step takes the oldest transaction from the port and runs its operation to completion.
With nothing presented the block is idle, all state held. The queue at the port is the model's own (log entry 3). -/
def Obligations.StepRunsTheOldestTransaction : Prop :=
  (∀ (s : State) (t : Transaction) (rest : List Transaction) (i : Instr), s.port = t :: rest → decode t = .ok i →
    step s = exec i { s with port := rest }) ∧
  ∀ s : State, s.port = [] → step s = .next s

/-! ### Reset and the invariant -/

/-- R46: after reset every field of the state is zero, under any configuration. -/
def Obligations.ResetZeroesEveryField : Prop :=
  ∀ c : Config,
    (State.resetWith c).ctx.count = 0 ∧ (State.resetWith c).ctx.phase = .awaitingHeader ∧ (State.resetWith c).ctx.declLen = 0 ∧
    (∀ a, (State.resetWith c).ctx.hdr.get a = 0) ∧ (∀ a, (State.resetWith c).ctx.payload.get a = 0) ∧
    (∀ e, ((State.resetWith c).slot e).cookie = 0 ∧ ((State.resetWith c).slot e).unitId = 0 ∧
      ((State.resetWith c).slot e).serviceId = 0 ∧ ((State.resetWith c).slot e).messageId = 0 ∧
      ((State.resetWith c).slot e).checksum = 0 ∧ ((State.resetWith c).slot e).dataLength = 0 ∧
      ∀ a, ((State.resetWith c).slot e).data.get a = 0) ∧
    (State.resetWith c).iel.slot = .rxe ∧ (State.resetWith c).iel.cap = 0 ∧ (State.resetWith c).iel.size = 0

/-- The reset state under a well-formed configuration meets the block's invariant. -/
def Obligations.ResetMeetsTheInvariant : Prop :=
  ∀ c : Config, c.wf = true → (State.resetWith c).Inv

/-- Every step keeps the invariant: envelopes within capacity (R28), the list within its slot (R40), the context consistent (R37) with
`declLen` within `CAP` (R34), the buffers canonical and within their capacities (R13; the canonical form is the model's own, log entry 13). -/
def Obligations.StepKeepsTheInvariant : Prop :=
  ∀ s t : State, s.Inv → step s = .next t → t.Inv

/-- R290: reset leaves what `CTX.INIT; ENV.CLR RXE; ENV.CLR TXE; IE.NEW RXE, 0` leaves, from any state that meets the invariant. -/
def Obligations.ResetEqualsTheInitialisingOperations : Prop :=
  (∀ c : Config, (State.resetWith c).ctx = .zero ∧ (State.resetWith c).rxe = .zero ∧ (State.resetWith c).txe = .zero ∧
    (State.resetWith c).iel = .zero) ∧
  ∀ s : State, s.Inv →
    ∃ t, runAll [.ctxInit, .envClr .rxe, .envClr .txe, .ieNew .rxe 0] s = .next ([true, true, true, true], t) ∧
      t.cfg = s.cfg ∧ t.ctx = (State.resetWith s.cfg).ctx ∧ t.rxe = (State.resetWith s.cfg).rxe ∧
      t.txe = (State.resetWith s.cfg).txe ∧ t.iel = (State.resetWith s.cfg).iel

/-! ### Rules of the whole machine -/

/-- R70, R207: no operation accesses a buffer beyond its capacity, in any state, for any operands.
The fault that such an access would be is the model's own device to say so (log entry 18): a check of the spec's that fails
ends with `ok = 0`. -/
def Obligations.NoOperationLeavesItsBuffers : Prop :=
  (∀ (s : State) (sp : Space) (i n : Nat), sp.capacity s.cfg < i + n →
    s.readBytes sp i n = .error (.outOfBounds sp (i + n))) ∧
  (∀ (s : State) (sp : Space) (i : Nat) (bytes : List Byte), sp.capacity s.cfg < i + bytes.length →
    s.writeBytes sp i bytes = .error (.outOfBounds sp (i + bytes.length))) ∧
  (∀ (i : Instr) (s : State) (f : Fault), exec i s ≠ .fault f) ∧
  ∀ (s : State) (f : Fault), step s ≠ .fault f

/-- The frame of every operation, by the write sets of R69 and R175, field by field: what an operation does not list it leaves as
it was. In the last clause `IE.ADD` writes only the size of the list and the bytes of its entry. -/
def Obligations.OperationsWriteOnlyTheirWriteSet : Prop :=
  ∀ (i : Instr) (s t : State), exec i s = .next t →
    t.cfg = s.cfg ∧ t.port = s.port ∧
    (writesCtx i = false → t.ctx = s.ctx) ∧
    (writesIel i = false → t.iel = s.iel) ∧
    (∀ e, writesSlot s.iel.slot i ≠ some e → t.slot e = s.slot e) ∧
    (∀ e, writesSlot s.iel.slot i ≠ some e ∨ mayDraw i = false → t.draws e = s.draws e) ∧
    (∀ e f, writesField f i = false → (t.slot e).field f = (s.slot e).field f) ∧
    (∀ e, writesLength i = false → (t.slot e).dataLength = (s.slot e).dataLength) ∧
    (∀ e, writesData i = false → ∀ a, (t.slot e).data.get a = (s.slot e).data.get a) ∧
    ∀ tag ibuf n, i = .ieAdd tag ibuf n → t.iel.slot = s.iel.slot ∧ t.iel.cap = s.iel.cap ∧
      ∀ e a, a < s.iel.size ∨ s.iel.size + ovh s.cfg + n ≤ a → (t.slot e).data.get a = (s.slot e).data.get a

/-- R271: `ok = 0` drives no other output. Outside `FEED` it is a rejection and leaves everything unchanged; in `FEED` it leaves
everything but `CTX` unchanged, and a rejection zeroes `CTX`. The ghost cause of a rejection is one of the operation's own (R261; log entry 9). -/
def Obligations.RejectionsLeaveOnlyTheirEffects : Prop :=
  ∀ (i : Instr) (s t : State) (r : Response), exec i s = .next t → t.resp = some r → r.ok = false →
    r.r = none ∧ r.obuf = none ∧ r.olen = none ∧ (∀ c, r.cause = some c → c ∈ mayRaise i) ∧
    ((∀ b, i ≠ .feed b) → r.cause ≠ none ∧ t = { s with resp := some r }) ∧
    (∀ b, i = .feed b → t = { s with ctx := t.ctx, resp := some r } ∧ (r.cause ≠ none → t.ctx = .zero))

/-- R119: every operation returns `ok`; five can return `ok = 0`, each of them from some state that meets the invariant,
and all others always return `ok = 1`. -/
def Obligations.OnlyFiveOperationsReturnZero : Prop :=
  (∀ (i : Instr) (s t : State), exec i s = .next t → ∃ r, t.resp = some r ∧ (r.ok = false → mayFail i = true)) ∧
  (∃ b s t, s.Inv ∧ exec (.feed b) s = .next t ∧ t.resp.map Response.ok = some false) ∧
  (∃ e ibuf n s t, s.Inv ∧ exec (.parse e ibuf n) s = .next t ∧ t.resp.map Response.ok = some false) ∧
  (∃ tag ibuf n s t, s.Inv ∧ exec (.ieAdd tag ibuf n) s = .next t ∧ t.resp.map Response.ok = some false) ∧
  (∃ e tag n s t, s.Inv ∧ exec (.ieGet e tag n) s = .next t ∧ t.resp.map Response.ok = some false) ∧
  ∃ e s t, s.Inv ∧ exec (.cksVfy e) s = .next t ∧ t.resp.map Response.ok = some false

/-- R63: an operation of the receive group and one of the transmit group give the same state and the same results in either order. -/
def Obligations.ReceiveAndTransmitCommute : Prop :=
  ∀ (a b : Instr) (s s1 s2 : State), receiveOnly a = true → transmitOnly s.iel.slot b = true →
    exec a s = .next s1 → exec b s1 = .next s2 →
    ∃ t1 t2, exec b s = .next t1 ∧ exec a t1 = .next t2 ∧ t1.resp = s2.resp ∧ t2.resp = s1.resp ∧
      { t2 with resp := none } = { s2 with resp := none }

/-- R69: every operation but `FEED` and `IE.ADD` repeated at once leaves the same state (envelopes compared as R16 compares them)
and returns the same results. -/
def Obligations.RepeatedOperationsAreIdempotent : Prop :=
  ∀ (i : Instr) (s t : State), (∀ b, i ≠ .feed b) → (∀ tag ibuf n, i ≠ .ieAdd tag ibuf n) → exec i s = .next t →
    ∃ u, exec i t = .next u ∧ u.resp = t.resp ∧ u.cfg = t.cfg ∧ u.ctx = t.ctx ∧ u.iel = t.iel ∧
      ∀ e, (u.slot e).equiv (t.slot e)

/-- R29, R134: the results of the operations that read a slot depend on its fields and payload only,
never on the bytes beyond `dataLength` and never on anything else of the state. -/
def Obligations.TailBytesNeverReachAResult : Prop :=
  ∀ (i : Instr) (e : Slot) (s s' t : State), readsSlot i = some e → s.cfg = s'.cfg → (s.slot e).equiv (s'.slot e) →
    exec i s = .next t → ∃ t', exec i s' = .next t' ∧ t'.resp = t.resp

/-- R28, R37, R40: an operation on a slot, a context or a list that breaks its invariant is refused.
The slot is the one an operand names, and the one the list is rooted at for `IE.ADD` and `ENV.SETLEN`.
That `FEED` is refused for a broken `RXE`, in mid-frame too, is the model's reading (DEDUCED, log entry 10): R191 and R37 ask for
`CTX` only, and R69 has `FEED` touch `RXE` on completion only. -/
def Obligations.BrokenStateIsRefused : Prop :=
  ∀ s : State, s.cfg.wf = true →
    (∀ e, s.cfg.cap < (s.slot e).dataLength → ∀ (ibuf : List Byte) (n tag : Nat) (f : HeaderField) (v : Half),
      exec (.parse e ibuf n) s = .refused (.brokenEnvelope e) ∧ exec (.envClr e) s = .refused (.brokenEnvelope e) ∧
      exec (.envSet e f v) s = .refused (.brokenEnvelope e) ∧ exec (.ieGet e tag n) s = .refused (.brokenEnvelope e) ∧
      exec (.cksCalc e) s = .refused (.brokenEnvelope e) ∧ exec (.cksVfy e) s = .refused (.brokenEnvelope e) ∧
      exec (.cksSeal e) s = .refused (.brokenEnvelope e) ∧ exec (.ser e) s = .refused (.brokenEnvelope e) ∧
      exec (.sers e) s = .refused (.brokenEnvelope e) ∧ exec (.ieNew e n) s = .refused (.brokenEnvelope e)) ∧
    (s.ctx.consistent s.cfg = true → s.cfg.cap < s.rxe.dataLength →
      ∀ b, exec (.feed b) s = .refused (.brokenEnvelope .rxe)) ∧
    (s.iel.size ≤ s.iel.cap → s.iel.cap ≤ s.cfg.cap → s.cfg.cap < (s.slot s.iel.slot).dataLength →
      ∀ (tag : Nat) (ibuf : List Byte) (n : Nat),
        exec (.ieAdd tag ibuf n) s = .refused (.brokenEnvelope s.iel.slot) ∧
        exec .envSetLen s = .refused (.brokenEnvelope s.iel.slot)) ∧
    (s.ctx.consistent s.cfg = false → ∀ b, exec (.feed b) s = .refused .brokenContext) ∧
    (s.iel.cap < s.iel.size ∨ s.cfg.cap < s.iel.cap → ∀ (tag : Nat) (ibuf : List Byte) (n : Nat),
      exec (.ieAdd tag ibuf n) s = .refused .brokenList ∧ exec .ieSize s = .refused .brokenList ∧
      exec .envSetLen s = .refused .brokenList)

/-! ### Checksum and endian unit -/

/-- R131, R132: both operations return the operand with its two bytes exchanged and change nothing. -/
def Obligations.EndianOperationsSwapBytes : Prop :=
  ∀ (s : State) (v : Half), s.cfg.wf = true →
    ∃ r : Half, r.extractLsb' 8 8 = v.extractLsb' 0 8 ∧ r.extractLsb' 0 8 = v.extractLsb' 8 8 ∧
      exec (.h2n16 v) s = .next { s with resp := some { ok := true, r := some r } } ∧
      exec (.n2h16 v) s = .next { s with resp := some { ok := true, r := some r } }

/-- R133: `N2H16` of the result of `H2N16 x` is `x`, and each of the two operations undoes itself. -/
def Obligations.EndianOperationsAreInvolutions : Prop :=
  ∀ (s : State) (x : Half), s.cfg.wf = true →
    ∃ (y : Half) (t : State), t = { s with resp := some { ok := true, r := some y } } ∧
      exec (.h2n16 x) s = .next t ∧ exec (.n2h16 x) s = .next t ∧
      exec (.h2n16 y) t = .next { t with resp := some { ok := true, r := some x } } ∧
      exec (.n2h16 y) t = .next { t with resp := some { ok := true, r := some x } }

/-- R138: `CKS.CALC` returns `CSUM` of the slot, zero-extended, and changes nothing, for every `CSUM`. -/
def Obligations.CalcReturnsTheChecksum : Prop :=
  ∀ (s : State) (e : Slot), s.cfg.wf = true → (s.slot e).dataLength ≤ s.cfg.cap →
    exec (.cksCalc e) s =
      .next { s with resp := some { ok := true, r := some (((s.slot e).csum s.cfg).zeroExtend 16) } }

/-- R139: `CKS.VFY` answers whether the stored checksum is `CSUM` of the slot, and changes nothing. -/
def Obligations.VerifyComparesTheChecksum : Prop :=
  ∀ (s : State) (e : Slot), s.cfg.wf = true → (s.slot e).dataLength ≤ s.cfg.cap →
    ((s.slot e).csum s.cfg = (s.slot e).checksum → exec (.cksVfy e) s = .next { s with resp := some { ok := true } }) ∧
    ((s.slot e).csum s.cfg ≠ (s.slot e).checksum →
      exec (.cksVfy e) s = .next { s with resp := some { ok := false, cause := some .csumMismatch } })

/-- R140: `CKS.SEAL` stores `CSUM` in the slot's checksum field and changes nothing else. `CKS.VFY` succeeds in every later state
in which the slot is still the same, and sealing twice is the same as once. -/
def Obligations.SealStoresTheChecksum : Prop :=
  ∀ (s : State) (e : Slot), s.cfg.wf = true → (s.slot e).dataLength ≤ s.cfg.cap →
    ∃ t, exec (.cksSeal e) s = .next t ∧ t.resp = some { ok := true } ∧ keepsAllButSlot e s t ∧
      t.slot e = { s.slot e with checksum := (s.slot e).csum s.cfg } ∧
      (∀ u : State, u.cfg = t.cfg → u.slot e = t.slot e →
        exec (.cksVfy e) u = .next { u with resp := some { ok := true } }) ∧
      exec (.cksSeal e) t = .next t

/-- R141: with any other checksum byte, a slot that verifies no longer does, whatever `CSUM` is. -/
def Obligations.ChecksumByteChangesAreDetected : Prop :=
  ∀ (s : State) (e : Slot) (k : Byte), s.cfg.wf = true → (s.slot e).dataLength ≤ s.cfg.cap →
    (s.slot e).csum s.cfg = (s.slot e).checksum → k ≠ (s.slot e).checksum →
    exec (.cksVfy e) s = .next { s with resp := some { ok := true } } ∧
    exec (.cksVfy e) (s.withSlot e { s.slot e with checksum := k }) =
      .next { s.withSlot e { s.slot e with checksum := k } with
        resp := some { ok := false, cause := some .csumMismatch } }

/-- R135 at the port: with one bit of one payload byte flipped, a slot that verifies no longer does, whatever `CSUM` is. -/
def Obligations.PayloadBitFlipsAreDetected : Prop :=
  ∀ (s : State) (e : Slot) (i k : Nat), s.cfg.wf = true → (s.slot e).dataLength ≤ s.cfg.cap →
    (s.slot e).csum s.cfg = (s.slot e).checksum → i < (s.slot e).dataLength → k < 8 →
    ∃ s', s' = s.withSlot e { s.slot e with
        data := (s.slot e).data.set i ((s.slot e).data.get i ^^^ BitVec.twoPow 8 k) } ∧
      exec (.cksVfy e) s' = .next { s' with resp := some { ok := false, cause := some .csumMismatch } }

/-- R142: both reference checksums are byte-serial folds over the covered bytes, from 0. -/
def Obligations.ReferenceChecksumsAreFolds : Prop :=
  ∀ (cookie unitId : Byte) (serviceId : Half) (messageId : Byte) (payload : List Byte),
    csumAdd cookie unitId serviceId messageId payload =
      (coveredBytes cookie unitId serviceId messageId payload).foldl (fun acc b => acc + b) 0 ∧
    csumXor cookie unitId serviceId messageId payload =
      (coveredBytes cookie unitId serviceId messageId payload).foldl (fun acc b => acc ^^^ b) 0

/-! ### Information-Element codec -/

/-- R150: `IE.NEW` roots an empty list and writes nothing but `IEL`; a capacity beyond the slot's buffer is refused. -/
def Obligations.NewListIsEmpty : Prop :=
  ∀ (s : State) (e : Slot) (n : Nat), s.cfg.wf = true → (s.slot e).dataLength ≤ s.cfg.cap →
    (n ≤ s.cfg.cap →
      exec (.ieNew e n) s = .next { s with iel := { slot := e, cap := n, size := 0 }, resp := some { ok := true } }) ∧
    (s.cfg.cap < n → exec (.ieNew e n) s = .refused .capacityBeyondBuffer)

/-- R152: where the entry fits, `IE.ADD` writes tag, length and value at the end of the list, every other byte and field
staying as it was. -/
def Obligations.AddAppendsOneEntry : Prop :=
  ∀ (s : State) (tag : Nat) (ibuf : List Byte) (n : Nat), s.cfg.wf = true →
    s.iel.cap ≤ s.cfg.cap → (s.slot s.iel.slot).dataLength ≤ s.cfg.cap →
    s.cfg.tagFits tag = true → s.cfg.lengthFits n = true → ibuf.length = n →
    s.iel.size + ovh s.cfg + n ≤ s.iel.cap →
    ∃ t, exec (.ieAdd tag ibuf n) s = .next t ∧ t.resp = some { ok := true } ∧
      t.iel = { s.iel with size := s.iel.size + ovh s.cfg + n } ∧
      (t.slot s.iel.slot).data.getRange s.iel.size (ovh s.cfg + n) =
        beBytes s.cfg.tagW tag ++ beBytes s.cfg.lenW n ++ ibuf ∧
      (∀ a, a < s.iel.size ∨ s.iel.size + ovh s.cfg + n ≤ a →
        (t.slot s.iel.slot).data.get a = (s.slot s.iel.slot).data.get a) ∧
      (t.slot s.iel.slot).header = (s.slot s.iel.slot).header ∧
      (t.slot s.iel.slot).dataLength = (s.slot s.iel.slot).dataLength ∧
      t.cfg = s.cfg ∧ t.ctx = s.ctx ∧ t.port = s.port ∧
      (∀ d, d ≠ s.iel.slot → t.slot d = s.slot d) ∧ ∀ d, t.draws d = s.draws d

/-- R151, R153: `IE.ADD` succeeds exactly when the stored size fits what remains; an exact fill succeeds,
and where it does not fit nothing at all is written. -/
def Obligations.AddSucceedsExactlyWhenItFits : Prop :=
  ∀ (s : State) (tag : Nat) (ibuf : List Byte) (n : Nat), s.cfg.wf = true →
    s.iel.size ≤ s.iel.cap → s.iel.cap ≤ s.cfg.cap → (s.slot s.iel.slot).dataLength ≤ s.cfg.cap →
    s.cfg.tagFits tag = true → s.cfg.lengthFits n = true → ibuf.length = n →
    ((∃ t, exec (.ieAdd tag ibuf n) s = .next t ∧ t.resp = some { ok := true }) ↔
      ovh s.cfg + n ≤ s.iel.cap - s.iel.size) ∧
    (ovh s.cfg + n = s.iel.cap - s.iel.size →
      ∃ t, exec (.ieAdd tag ibuf n) s = .next t ∧ t.resp = some { ok := true } ∧ t.iel.size = s.iel.cap) ∧
    (s.iel.cap - s.iel.size < ovh s.cfg + n →
      exec (.ieAdd tag ibuf n) s = .next { s with resp := some { ok := false, cause := some .ieCapacity } })

/-- R154, R117, R151: `IE.ADD` refuses a length its field cannot state, whatever room the list has, a tag its port cannot present,
and a value shorter than its length (the last two refusals are the model's choice, log entry 11). -/
def Obligations.AddRefusesWhatItCannotEncode : Prop :=
  ∀ (s : State) (tag : Nat) (ibuf : List Byte) (n : Nat), s.cfg.wf = true →
    s.iel.size ≤ s.iel.cap → s.iel.cap ≤ s.cfg.cap → (s.slot s.iel.slot).dataLength ≤ s.cfg.cap →
    (s.cfg.tagFits tag = true → 2 ^ (8 * s.cfg.lenW) ≤ n →
      exec (.ieAdd tag ibuf n) s = .refused .lengthNotEncodable) ∧
    (2 ^ (8 * s.cfg.tagW) ≤ tag → exec (.ieAdd tag ibuf n) s = .refused .tagNotPresentable) ∧
    (s.cfg.tagFits tag = true → n < 2 ^ (8 * s.cfg.lenW) → ibuf.length < n →
      exec (.ieAdd tag ibuf n) s = .refused .operandTooShort)

/-- What the port cannot present (R117, R151): of a value longer than `n`, `IE.ADD` uses the first `n` bytes only.
The model's choice (log entry 11). -/
def Obligations.AddUsesTheFirstBytes : Prop :=
  ∀ (s : State) (tag : Nat) (ibuf : List Byte) (n : Nat), n ≤ ibuf.length →
    exec (.ieAdd tag ibuf n) s = exec (.ieAdd tag (ibuf.take n) n) s

/-- R155: `IE.SIZE` returns the list's size, where 16 bits hold it, and changes nothing.
For a larger size it completes too; what it returns there is a free value (log entry 6). -/
def Obligations.SizeReturnsTheListSize : Prop :=
  ∀ s : State, s.cfg.wf = true → s.iel.size ≤ s.iel.cap → s.iel.cap ≤ s.cfg.cap →
    ∃ r : Half, exec .ieSize s = .next { s with resp := some { ok := true, r := some r } } ∧
      (s.iel.size < 2 ^ 16 → r.toNat = s.iel.size)

/-- R156, R157: the first entry with the tag decides. Its value is returned if its length is `n`; otherwise, whatever follows,
the result is `ok = 0`. -/
def Obligations.GetReturnsTheFirstMatch : Prop :=
  ∀ (s : State) (e : Slot) (tag n : Nat) (ies : List (Nat × List Byte)) (v post : List Byte), s.cfg.wf = true →
    (s.slot e).dataLength ≤ s.cfg.cap →
    (∀ tv ∈ ies, encodable s.cfg tv ∧ tv.1 ≠ tag) → encodable s.cfg (tag, v) →
    (s.slot e).payload = listBytes s.cfg ies ++ (tlvBytes s.cfg tag v ++ post) →
    exec (.ieGet e tag n) s =
      .next { s with resp := some (if v.length = n then { ok := true, obuf := some v, olen := some n }
        else { ok := false, cause := some .ieAbsent }) }

/-- R158: a scan that meets a trailing fragment or an entry that runs past the payload ends there with `ok = 0`,
even where that entry has the tag. -/
def Obligations.GetStopsAtADefect : Prop :=
  ∀ (s : State) (e : Slot) (tag n : Nat) (ies : List (Nat × List Byte)) (post : List Byte), s.cfg.wf = true →
    (s.slot e).dataLength ≤ s.cfg.cap → s.cfg.tagFits tag = true →
    (∀ tv ∈ ies, encodable s.cfg tv ∧ tv.1 ≠ tag) →
    (post.length < ovh s.cfg ∨ post.length < ovh s.cfg + beVal (slice post s.cfg.tagW s.cfg.lenW)) →
    (s.slot e).payload = listBytes s.cfg ies ++ post →
    exec (.ieGet e tag n) s = .next { s with resp := some { ok := false, cause := some .ieAbsent } }

/-- R159, R160: on any payload whatever `IE.GET` completes and changes no state; on `ok = 1` it writes exactly `n` bytes of the
output operand, on `ok = 0` none. -/
def Obligations.GetWritesOnlyItsOutput : Prop :=
  ∀ (s : State) (e : Slot) (tag n : Nat), s.cfg.wf = true → (s.slot e).dataLength ≤ s.cfg.cap → s.cfg.tagFits tag = true →
    ∃ r, exec (.ieGet e tag n) s = .next { s with resp := some r } ∧ r.r = none ∧
      (r.ok = true → ∃ v, r.obuf = some v ∧ v.length = n ∧ r.olen = some n) ∧
      (r.ok = false → r.obuf = none ∧ r.olen = none)

/-- R162: a list built by successful additions returns, for every tag, the value added first under it,
and `ok = 0` for a tag never added. -/
def Obligations.ListsReadBackAsBuilt : Prop :=
  ∀ (s t : State) (e : Slot) (n : Nat) (ies : List (Nat × List Byte)) (oks : List Bool),
    runAll (.ieNew e n :: ies.map addElement ++ [.envSetLen]) s = .next (oks, t) → (∀ b ∈ oks, b = true) →
    (∀ (tag : Nat) (v : List Byte), firstValue ies tag = some v →
      exec (.ieGet e tag v.length) t =
        .next { t with resp := some { ok := true, obuf := some v, olen := some v.length } }) ∧
    ∀ tag m : Nat, firstValue ies tag = none → t.cfg.tagFits tag = true →
      exec (.ieGet e tag m) t = .next { t with resp := some { ok := false, cause := some .ieAbsent } }

/-! ### Envelope unit and serialiser -/

/-- R172: `ENV.CLR` zeroes every field and every byte of the slot and nothing else. -/
def Obligations.ClearZeroesTheSlot : Prop :=
  ∀ (s : State) (e : Slot), s.cfg.wf = true → (s.slot e).dataLength ≤ s.cfg.cap →
    ∃ t, exec (.envClr e) s = .next t ∧ t.resp = some { ok := true } ∧ keepsAllButSlot e s t ∧
      (t.slot e).cookie = 0 ∧ (t.slot e).unitId = 0 ∧ (t.slot e).serviceId = 0 ∧ (t.slot e).messageId = 0 ∧
      (t.slot e).checksum = 0 ∧ (t.slot e).dataLength = 0 ∧ ∀ a, (t.slot e).data.get a = 0

/-- R174: `ENV.SET` writes the one field its selector names, an 8-bit field taking the low byte of `v`, and nothing else.
Selectors 0 to 4 name the five fields in order, and 5 to 7 none. -/
def Obligations.SetWritesOneHeaderField : Prop :=
  (HeaderField.ofSelector 0 = some .cookie ∧ HeaderField.ofSelector 1 = some .unitId ∧
    HeaderField.ofSelector 2 = some .serviceId ∧ HeaderField.ofSelector 3 = some .messageId ∧
    HeaderField.ofSelector 4 = some .checksum ∧ HeaderField.ofSelector 5 = none ∧ HeaderField.ofSelector 6 = none ∧
    HeaderField.ofSelector 7 = none) ∧
  ∀ (s : State) (e : Slot) (f : HeaderField) (v : Half), s.cfg.wf = true → (s.slot e).dataLength ≤ s.cfg.cap →
    ∃ t, exec (.envSet e f v) s = .next t ∧ t.resp = some { ok := true } ∧ keepsAllButSlot e s t ∧
      (t.slot e).cookie = (if f = .cookie then v.extractLsb' 0 8 else (s.slot e).cookie) ∧
      (t.slot e).unitId = (if f = .unitId then v.extractLsb' 0 8 else (s.slot e).unitId) ∧
      (t.slot e).serviceId = (if f = .serviceId then v else (s.slot e).serviceId) ∧
      (t.slot e).messageId = (if f = .messageId then v.extractLsb' 0 8 else (s.slot e).messageId) ∧
      (t.slot e).checksum = (if f = .checksum then v.extractLsb' 0 8 else (s.slot e).checksum) ∧
      (t.slot e).dataLength = (s.slot e).dataLength ∧ (t.slot e).data = (s.slot e).data

/-- R176: `ENV.SETLEN` copies the list's size into the `dataLength` of the slot the list is rooted at, and nothing else. -/
def Obligations.SetLengthCopiesTheListSize : Prop :=
  ∀ s : State, s.cfg.wf = true → s.iel.size ≤ s.iel.cap → s.iel.cap ≤ s.cfg.cap →
    (s.slot s.iel.slot).dataLength ≤ s.cfg.cap →
    ∃ t, exec .envSetLen s = .next t ∧ t.resp = some { ok := true } ∧ keepsAllButSlot s.iel.slot s t ∧
      t.slot s.iel.slot = { s.slot s.iel.slot with dataLength := s.iel.size }

/-- R180: `SER` emits the six header bytes, the stored checksum as it is, then the payload, and changes nothing. -/
def Obligations.SerialiseEmitsTheFrame : Prop :=
  ∀ (s : State) (e : Slot), s.cfg.wf = true → (s.slot e).dataLength ≤ s.cfg.cap →
    exec (.ser e) s = .next { s with resp := some {
      ok := true
      obuf := some ([(s.slot e).cookie, (s.slot e).unitId, (s.slot e).serviceId.extractLsb' 8 8,
        (s.slot e).serviceId.extractLsb' 0 8, (s.slot e).messageId, (s.slot e).checksum] ++
        (s.slot e).data.getRange 0 (s.slot e).dataLength)
      olen := some (6 + (s.slot e).dataLength) } }

/-- R181: `SERS` emits the length field, big-endian with the bias, before the bytes of `SER`, and changes nothing.
The field reads back as the length it states. -/
def Obligations.SerialiseStreamEmitsTheStreamFrame : Prop :=
  ∀ (s : State) (e : Slot), s.cfg.wf = true → (s.slot e).dataLength ≤ s.cfg.cap →
    ∃ lenf frame, lenf.length = s.cfg.lenfW ∧ beVal lenf = (s.slot e).dataLength + s.cfg.lenfBias ∧
      exec (.ser e) s = .next { s with resp := some {
        ok := true, obuf := some frame, olen := some (6 + (s.slot e).dataLength) } } ∧
      exec (.sers e) s = .next { s with resp := some {
        ok := true, obuf := some (lenf ++ frame), olen := some (shdr s.cfg + (s.slot e).dataLength) } }

/-! ### Incremental framer -/

/-- R190: `CTX.INIT` zeroes `CTX`, whatever it held, and nothing else. -/
def Obligations.InitZeroesTheContext : Prop :=
  ∀ s : State, s.cfg.wf = true → exec .ctxInit s = .next { s with ctx := .zero, resp := some { ok := true } }

/-- R195: a header byte before the last is stored at `count`, which moves on by one, and nothing else happens. -/
def Obligations.FeedStoresAHeaderByte : Prop :=
  ∀ (s : State) (b : Byte), s.cfg.wf = true → s.rxe.dataLength ≤ s.cfg.cap → s.ctx.phase = .awaitingHeader →
    s.ctx.count + 1 < shdr s.cfg →
    ∃ hdr, exec (.feed b) s =
        .next { s with ctx := { s.ctx with hdr := hdr, count := s.ctx.count + 1 }, resp := some { ok := false } } ∧
      ∀ a, hdr.get a = if a = s.ctx.count then b else s.ctx.hdr.get a

/-- R197, R198: at the last header byte a length value below the bias is `UNDERSIZE` and a declared length above `CAP` is
`LEN_OVERFLOW`, both zeroing `CTX` and changing nothing else. A legal length above 0 is kept and the framer awaits that many
payload bytes. With length 0 the frame is complete, and its checksum decides. -/
def Obligations.FeedDecodesTheDeclaredLength : Prop :=
  ∀ (s : State) (b : Byte), s.cfg.wf = true → s.rxe.dataLength ≤ s.cfg.cap → s.ctx.phase = .awaitingHeader →
    s.ctx.count + 1 = shdr s.cfg →
    (lengthValue s.cfg (headerWith s b) < s.cfg.lenfBias →
      exec (.feed b) s = .next { s with ctx := .zero, resp := some { ok := false, cause := some .undersize } }) ∧
    (s.cfg.lenfBias + s.cfg.cap < lengthValue s.cfg (headerWith s b) →
      exec (.feed b) s = .next { s with ctx := .zero, resp := some { ok := false, cause := some .lenOverflow } }) ∧
    (s.cfg.lenfBias < lengthValue s.cfg (headerWith s b) →
      lengthValue s.cfg (headerWith s b) ≤ s.cfg.lenfBias + s.cfg.cap →
      exec (.feed b) s = .next { s with
        ctx := {
          count := shdr s.cfg, phase := .awaitingPayload, hdr := headerWith s b,
          declLen := lengthValue s.cfg (headerWith s b) - s.cfg.lenfBias, payload := s.ctx.payload }
        resp := some { ok := false } }) ∧
    (lengthValue s.cfg (headerWith s b) = s.cfg.lenfBias →
      ∃ t r, exec (.feed b) s = .next t ∧ t.resp = some r ∧ t.ctx = .zero ∧
        (r.ok = true ↔ frameCsum s.cfg (headerFields s.cfg (headerWith s b)) [] =
          (headerFields s.cfg (headerWith s b)).checksum) ∧
        (r.ok = true → t.rxe.holds (headerFields s.cfg (headerWith s b)) []))

/-- R201: a payload byte before the last is stored at `count - SHDR`, `count` moves on by one, and nothing else happens. -/
def Obligations.FeedStoresAPayloadByte : Prop :=
  ∀ (s : State) (b : Byte), s.cfg.wf = true → s.rxe.dataLength ≤ s.cfg.cap → s.ctx.phase = .awaitingPayload →
    s.ctx.declLen ≤ s.cfg.cap →
    shdr s.cfg ≤ s.ctx.count → s.ctx.count + 1 < shdr s.cfg + s.ctx.declLen →
    ∃ payload, exec (.feed b) s = .next { s with
        ctx := { s.ctx with payload := payload, count := s.ctx.count + 1 }, resp := some { ok := false } } ∧
      ∀ a, payload.get a = if a = s.ctx.count - shdr s.cfg then b else s.ctx.payload.get a

/-- R199, R200: at the last byte of a frame the checksum decides. A mismatch zeroes `CTX` and changes nothing else;
a match delivers the frame into `RXE`, zeroes `CTX` and changes nothing else. -/
def Obligations.FeedCompletesTheFrame : Prop :=
  ∀ (s : State) (b : Byte) (hdr : Memory) (payload : List Byte), s.cfg.wf = true → s.rxe.dataLength ≤ s.cfg.cap →
    s.ctx.consistent s.cfg = true → FrameEnds s b hdr payload →
    (frameCsum s.cfg (headerFields s.cfg hdr) payload ≠ (headerFields s.cfg hdr).checksum →
      exec (.feed b) s = .next { s with ctx := .zero, resp := some { ok := false, cause := some .csumMismatch } }) ∧
    (frameCsum s.cfg (headerFields s.cfg hdr) payload = (headerFields s.cfg hdr).checksum →
      ∃ t, exec (.feed b) s = .next t ∧ t.resp = some { ok := true } ∧ t.ctx = .zero ∧
        t.rxe.holds (headerFields s.cfg hdr) payload ∧
        t.cfg = s.cfg ∧ t.txe = s.txe ∧ t.iel = s.iel ∧ t.txDraws = s.txDraws ∧ t.port = s.port)

/-- R38, R193: from every consistent context, with `RXE` within its invariant (R28; log entry 10), for every byte, `FEED` completes and either adds 1 to `count` or zeroes the context;
the context stays consistent, so the framer is never stuck. -/
def Obligations.FeedAdvancesOrZeroes : Prop :=
  ∀ (s : State) (b : Byte), s.cfg.wf = true → s.rxe.dataLength ≤ s.cfg.cap → s.ctx.consistent s.cfg = true →
    ∃ t r, exec (.feed b) s = .next t ∧ t.resp = some r ∧ t.ctx.consistent t.cfg = true ∧
      ((r = { ok := false } ∧ t.ctx.count = s.ctx.count + 1) ∨ ((r.ok = true ∨ r.cause ≠ none) ∧ t.ctx = .zero))

/-- R203: a `FEED` that returns `ok = 0` leaves every field and byte of `RXE` as it was, in mid-frame and on rejection;
no `FEED` touches `TXE` or `IEL`. -/
def Obligations.FeedWritesTheSlotOnlyOnDelivery : Prop :=
  ∀ (s t : State) (b : Byte) (r : Response), exec (.feed b) s = .next t → t.resp = some r →
    (r.ok = false → t.rxe = s.rxe ∧ t.rxDraws = s.rxDraws) ∧ t.txe = s.txe ∧ t.txDraws = s.txDraws ∧ t.iel = s.iel

/-- R205: the bytes of a valid stream frame, fed from a zero context, return `ok = 0` but for the last, which returns `ok = 1`,
leave `CTX` zero and `RXE` holding the frame. -/
def Obligations.ValidStreamFrameIsDelivered : Prop :=
  ∀ (s : State) (h : Header) (payload : List Byte), s.cfg.wf = true → s.rxe.dataLength ≤ s.cfg.cap → s.ctx = .zero →
    payload.length ≤ s.cfg.cap →
    frameCsum s.cfg h payload = h.checksum →
    ∃ t, feedAll (beBytes s.cfg.lenfW (payload.length + s.cfg.lenfBias) ++
          [h.cookie, h.unitId, h.serviceId.extractLsb' 8 8, h.serviceId.extractLsb' 0 8, h.messageId, h.checksum] ++ payload) s =
        .next (List.replicate (shdr s.cfg + payload.length - 1) false ++ [true], t) ∧
      t.ctx = .zero ∧ t.rxe.holds h payload ∧ t.txe = s.txe ∧ t.iel = s.iel ∧ t.cfg = s.cfg

/-- R206: stream frames fed without gaps are framed one by one. Each valid one returns `ok = 1` at its last byte, each one that is
well delimited with a wrong checksum returns `ok = 0` throughout, and `RXE` holds the last valid one. -/
def Obligations.BackToBackFramesAreFramedOneByOne : Prop :=
  ∀ (s : State) (frames : List (Header × List Byte)), s.cfg.wf = true → s.rxe.dataLength ≤ s.cfg.cap → s.ctx = .zero →
    (∀ f ∈ frames, f.2.length ≤ s.cfg.cap) →
    ∃ t, feedAll (frames.flatMap fun f => streamBytes s.cfg f.1 f.2) s =
        .next (frames.flatMap (fun f => List.replicate (shdr s.cfg + f.2.length - 1) false ++ [goodFrame s.cfg f]), t) ∧
      t.ctx = .zero ∧
      (∀ f, (frames.filter (goodFrame s.cfg)).getLast? = some f → t.rxe.holds f.1 f.2) ∧
      ((frames.filter (goodFrame s.cfg)).getLast? = none → t.rxe = s.rxe)

/-- R208 case 7, R310: from a zero context fewer than `SHDR` bytes complete no frame, whatever they are. -/
def Obligations.NoCompletionWithinAHeader : Prop :=
  ∀ (s : State) (bytes : List Byte), s.cfg.wf = true → s.rxe.dataLength ≤ s.cfg.cap → s.ctx = .zero → bytes.length < shdr s.cfg →
    ∃ t, feedAll bytes s = .next (List.replicate bytes.length false, t) ∧ t.ctx.count = bytes.length ∧ t.rxe = s.rxe

/-! ### One-shot parser -/

/-- R223 to R225: a packet of legal length whose checksum is right, or is not verified, is delivered into the slot
and nothing else changes. -/
def Obligations.ParseDeliversTheFrame : Prop :=
  ∀ (s : State) (e : Slot) (ibuf : List Byte) (n : Nat), s.cfg.wf = true → (s.slot e).dataLength ≤ s.cfg.cap →
    n ≤ ibuf.length → 6 ≤ n → n ≤ 6 + s.cfg.cap →
    (s.cfg.parseVerify = true →
      frameCsum s.cfg (headerOf ibuf) ((ibuf.take n).drop 6) = (headerOf ibuf).checksum) →
    ∃ t, exec (.parse e ibuf n) s = .next t ∧ t.resp = some { ok := true } ∧
      (t.slot e).cookie = ibuf.getD 0 0 ∧ (t.slot e).unitId = ibuf.getD 1 0 ∧
      (t.slot e).serviceId.toNat = 256 * (ibuf.getD 2 0).toNat + (ibuf.getD 3 0).toNat ∧
      (t.slot e).messageId = ibuf.getD 4 0 ∧ (t.slot e).checksum = ibuf.getD 5 0 ∧
      (t.slot e).dataLength = n - 6 ∧ (t.slot e).payload = (ibuf.take n).drop 6 ∧
      t.cfg = s.cfg ∧ t.ctx = s.ctx ∧ t.iel = s.iel ∧ t.port = s.port ∧
      ∀ d, d ≠ e → t.slot d = s.slot d ∧ t.draws d = s.draws d

/-- R221, R222, R224, R226, R227: the tests in their order, undersize, then overflow, then checksum; a rejected packet changes nothing. -/
def Obligations.ParseRejectsInOrder : Prop :=
  ∀ (s : State) (e : Slot) (ibuf : List Byte) (n : Nat), s.cfg.wf = true → (s.slot e).dataLength ≤ s.cfg.cap →
    n ≤ ibuf.length →
    (n < 6 → exec (.parse e ibuf n) s = .next { s with resp := some { ok := false, cause := some .undersize } }) ∧
    (6 + s.cfg.cap < n →
      exec (.parse e ibuf n) s = .next { s with resp := some { ok := false, cause := some .lenOverflow } }) ∧
    (6 ≤ n → n ≤ 6 + s.cfg.cap → s.cfg.parseVerify = true →
      frameCsum s.cfg (headerOf ibuf) ((ibuf.take n).drop 6) ≠ (headerOf ibuf).checksum →
      exec (.parse e ibuf n) s = .next { s with resp := some { ok := false, cause := some .csumMismatch } })

/-- R230: a length beyond the buffer given is refused. -/
def Obligations.ParseRefusesALengthBeyondItsBuffer : Prop :=
  ∀ (s : State) (e : Slot) (ibuf : List Byte) (n : Nat), s.cfg.wf = true → (s.slot e).dataLength ≤ s.cfg.cap →
    ibuf.length < n → exec (.parse e ibuf n) s = .refused .operandTooShort

/-- R184: the inverse laws. A slot that verifies, serialised and parsed, is reproduced; serialised as a stream frame and fed from a
zero context, it is reproduced in `RXE` at the last byte; and a packet that `PARSE` accepts is serialised back byte for byte. -/
def Obligations.SerialisingInvertsParsingAndFraming : Prop :=
  (∀ (s : State) (e d : Slot), s.cfg.wf = true → (s.slot e).dataLength ≤ s.cfg.cap → (s.slot d).dataLength ≤ s.cfg.cap →
    (s.slot e).csum s.cfg = (s.slot e).checksum →
    ∃ frame t u, exec (.ser e) s = .next t ∧
      t.resp = some { ok := true, obuf := some frame, olen := some frame.length } ∧
      exec (.parse d frame frame.length) t = .next u ∧ u.resp = some { ok := true } ∧ (u.slot d).equiv (s.slot e)) ∧
  (∀ (s : State) (e : Slot), s.cfg.wf = true → (s.slot e).dataLength ≤ s.cfg.cap → s.rxe.dataLength ≤ s.cfg.cap → s.ctx = .zero →
    (s.slot e).csum s.cfg = (s.slot e).checksum →
    ∃ bytes t u, exec (.sers e) s = .next t ∧
      t.resp = some { ok := true, obuf := some bytes, olen := some bytes.length } ∧
      feedAll bytes t = .next (List.replicate (bytes.length - 1) false ++ [true], u) ∧ u.rxe.equiv (s.slot e)) ∧
  ∀ (s t : State) (d : Slot) (ibuf : List Byte) (n : Nat), exec (.parse d ibuf n) s = .next t → t.resp = some { ok := true } →
    exec (.ser d) t = .next { t with resp := some { ok := true, obuf := some (ibuf.take n), olen := some n } }

/-- R228, for every packet whose payload length is legal: `PARSE` accepts it exactly when `FEED`, given the same frame behind its
length field from a zero context, returns `ok = 1` on the last byte, and then the two envelopes are equivalent. -/
def Obligations.ParserAndFramerAgree : Prop :=
  ∀ (s : State) (d : Slot) (packet : List Byte), s.cfg.wf = true → s.cfg.parseVerify = true → s.ctx = .zero →
    s.rxe.dataLength ≤ s.cfg.cap → (s.slot d).dataLength ≤ s.cfg.cap → 6 ≤ packet.length → packet.length ≤ 6 + s.cfg.cap →
    ∃ u r oks t, exec (.parse d packet packet.length) s = .next u ∧ u.resp = some r ∧
      feedAll (beBytes s.cfg.lenfW (packet.length - 6 + s.cfg.lenfBias) ++ packet) s = .next (oks, t) ∧
      oks.getLast? = some r.ok ∧ (r.ok = true → (u.slot d).equiv t.rxe)

/-- R204, R311: after a `LEN_OVERFLOW` the framing is lost, and a false `ok = 1` is possible. There is a packet that `PARSE` rejects
for its length while `FEED`, given it behind its length field, returns `ok = 1` on the last byte: R228 does not hold beyond `CAP`. -/
def Obligations.FramerMayDeliverFalselyAfterOverflow : Prop :=
  ∃ (s : State) (packet : List Byte) (oks : List Bool) (t : State), s.Inv ∧ s.cfg.parseVerify = true ∧ s.ctx = .zero ∧
    packet.length - 6 + s.cfg.lenfBias < 2 ^ (8 * s.cfg.lenfW) ∧
    exec (.parse .txe packet packet.length) s = .next { s with resp := some { ok := false, cause := some .lenOverflow } } ∧
    feedAll (beBytes s.cfg.lenfW (packet.length - 6 + s.cfg.lenfBias) ++ packet) s = .next (oks, t) ∧
    oks.getLast? = some true

/-! ### Builders -/

/-- R236 to R238, R247: `BUILD` completes; it succeeds exactly when its entries fit the slot, and then the slot holds the header
and the entries in order; it leaves `CTX` and the other slot as they were. -/
def Obligations.BuildSucceedsExactlyWhenEntriesFit : Prop :=
  ∀ (s : State) (e : Slot) (unit : Byte) (svc : Half) (msg : Byte) (ies : List (Nat × List Byte)), s.cfg.wf = true →
    (s.slot e).dataLength ≤ s.cfg.cap → (∀ tv ∈ ies, encodable s.cfg tv) →
    ∃ ok t, build e unit svc msg ies s = .next (ok, t) ∧
      (ok = true ↔ (listBytes s.cfg ies).length ≤ s.cfg.cap) ∧
      (ok = true → (t.slot e).holds
        { cookie := 0, unitId := unit, serviceId := svc, messageId := msg, checksum := 0 } (listBytes s.cfg ies)) ∧
      (t.slot e).dataLength ≤ s.cfg.cap ∧ t.cfg = s.cfg ∧ t.ctx = s.ctx ∧ t.port = s.port ∧ ∀ d, d ≠ e → t.slot d = s.slot d

/-- R240, R242: the named builders without payload always succeed, with `dataLength = 0`. -/
def Obligations.PayloadlessBuildersAlwaysSucceed : Prop :=
  ∀ (s : State) (builder : Builder) (e : Slot) (unit : Byte), s.cfg.wf = true →
    (s.slot e).dataLength ≤ s.cfg.cap → builder.payloadless = true →
    ∃ t, buildNamed builder e unit s = .next (true, t) ∧ (t.slot e).dataLength = 0 ∧ (t.slot e).unitId = unit

/-- R239, R241, R243: a named builder that succeeds leaves its service's and its message's constant (log entry 7) and its elements,
an alert request a payload that is not empty. Raw data that cannot fit fails and leaves no byte in the slot. -/
def Obligations.NamedBuildersFollowTheTable : Prop :=
  ∀ (s : State) (builder : Builder) (e : Slot) (unit : Byte), s.cfg.wf = true →
    (s.slot e).dataLength ≤ s.cfg.cap → (∀ tv ∈ builder.elements s.cfg, encodable s.cfg tv) →
    ∃ ok t, buildNamed builder e unit s = .next (ok, t) ∧
      (ok = true ↔ (listBytes s.cfg (builder.elements s.cfg)).length ≤ s.cfg.cap) ∧
      (ok = true → (∀ service, serviceOf builder.name = some service → (t.slot e).serviceId = Config.serviceConstant service) ∧
        (t.slot e).messageId = Config.builderMessage builder.name ∧ (t.slot e).unitId = unit ∧
        (t.slot e).payload = listBytes s.cfg (builder.elements s.cfg)) ∧
      (builder.name = .alertNotifyRequest → ok = true → 0 < (t.slot e).dataLength) ∧
      (∀ raw, builder = .rawDataSendRequest raw → s.cfg.cap < ovh s.cfg + raw.length →
        ok = false ∧ ∀ a, (t.slot e).data.get a = 0)

/-- R246: after a successful build, sealing, serialising and parsing recover every field the builder set,
and `IE.GET` recovers the value of every tag. -/
def Obligations.BuiltMessagesParseBack : Prop :=
  ∀ (s t : State) (e d : Slot) (unit : Byte) (svc : Half) (msg : Byte) (ies : List (Nat × List Byte)),
    (s.slot d).dataLength ≤ s.cfg.cap → build e unit svc msg ies s = .next (true, t) →
    ∃ frame t1 t2 u, exec (.cksSeal e) t = .next t1 ∧ exec (.ser e) t1 = .next t2 ∧
      t2.resp = some { ok := true, obuf := some frame, olen := some frame.length } ∧
      exec (.parse d frame frame.length) t2 = .next u ∧ u.resp = some { ok := true } ∧
      (u.slot d).unitId = unit ∧ (u.slot d).serviceId = svc ∧ (u.slot d).messageId = msg ∧
      (u.slot d).dataLength = (ies.map fun tv => ovh s.cfg + tv.2.length).sum ∧
      ∀ (tag : Nat) (v : List Byte), firstValue ies tag = some v →
        exec (.ieGet d tag v.length) u =
          .next { u with resp := some { ok := true, obuf := some v, olen := some v.length } }

/-- R248: `SEND` seals the slot and emits its stream frame, or its packet for a transport that frames packets by its own means.
The checksum byte emitted is then `CSUM` of the slot. -/
def Obligations.SendSealsAndEmits : Prop :=
  ∀ (s : State) (e : Slot) (form : SendForm), s.cfg.wf = true → (s.slot e).dataLength ≤ s.cfg.cap →
    ∃ t bytes, runAll (sendOps form e) s = .next ([true, true], t) ∧
      t.slot e = { s.slot e with checksum := (s.slot e).csum s.cfg } ∧
      t.resp = some { ok := true, obuf := some bytes, olen := some bytes.length } ∧
      (form = .packet →
        bytes = frameBytes { (s.slot e).header with checksum := (s.slot e).csum s.cfg } (s.slot e).payload) ∧
      (form = .stream →
        bytes = streamBytes s.cfg { (s.slot e).header with checksum := (s.slot e).csum s.cfg } (s.slot e).payload)
end

