-- ==== Sys2Proof/Laws/Memory.lean ====
section
/-! SUPPORT. The laws of one buffer: read after write, ranges, and that every operation keeps the canonical form. -/

namespace Sys2Proof.Machine

theorem findCell_insertCell (i j : Nat) (b : Byte) :
    ∀ l, findCell j (insertCell i b l) = if j = i then some b else findCell j l
  | [] => by simp [insertCell, findCell, eq_comm]
  | c :: l => by
    have ih := findCell_insertCell i j b l
    unfold insertCell
    split
    · simp [findCell, eq_comm]
    · split
      · rename_i h; subst h
        by_cases hj : j = c.1
        · simp [findCell, hj]
        · simp [findCell, hj, Ne.symm hj]
      · rename_i h1 h2
        by_cases hj : c.1 = j
        · have : j ≠ i := fun h => h2 (by omega)
          simp [findCell, hj, this]
        · simp [findCell, hj, ih]

theorem findCell_removeCell (i j : Nat) :
    ∀ l, findCell j (removeCell i l) = if j = i then none else findCell j l
  | [] => by simp [removeCell, findCell]
  | c :: l => by
    have ih := findCell_removeCell i j l
    unfold removeCell
    split
    · rename_i h
      rw [ih]
      by_cases hj : j = i
      · simp [hj]
      · have : c.1 ≠ j := fun h' => hj (by omega)
        simp [hj, findCell, this]
    · rename_i h
      by_cases hj : c.1 = j
      · have : j ≠ i := fun h' => h (by omega)
        simp [findCell, hj, this]
      · simp [findCell, hj, ih]

@[simp] theorem Memory.set_fill (m : Memory) (i : Nat) (b : Byte) : (m.set i b).fill = m.fill := by
  unfold Memory.set; split <;> rfl

/-- Read after write. -/
theorem Memory.get_set (m : Memory) (i j : Nat) (b : Byte) :
    (m.set i b).get j = if j = i then b else m.get j := by
  unfold Memory.set
  split
  · rename_i h
    by_cases hj : j = i
    · simp [Memory.get, findCell_removeCell, hj, h.1, h.2, Fill.byte]
    · simp [Memory.get, findCell_removeCell, hj]
  · by_cases hj : j = i
    · simp [Memory.get, findCell_insertCell, hj]
    · simp [Memory.get, findCell_insertCell, hj]

@[simp] theorem Memory.get_set_same (m : Memory) (i : Nat) (b : Byte) : (m.set i b).get i = b := by simp [Memory.get_set]

theorem Memory.get_set_ne (m : Memory) {i j : Nat} (b : Byte) (h : j ≠ i) : (m.set i b).get j = m.get j := by
  simp [Memory.get_set, h]

@[simp] theorem Memory.get_zero (i : Nat) : Memory.zero.get i = 0 := rfl

/-! ### Ranges -/

@[simp] theorem Memory.length_getRange (m : Memory) (i n : Nat) : (m.getRange i n).length = n := by simp [Memory.getRange]

@[simp] theorem Memory.getElem_getRange (m : Memory) (i n k : Nat) (h : k < (m.getRange i n).length) :
    (m.getRange i n)[k] = m.get (i + k) := by simp [Memory.getRange]

@[simp] theorem Memory.getRange_zero (m : Memory) (i : Nat) : m.getRange i 0 = [] := rfl

theorem Memory.getRange_congr {m m' : Memory} {i n : Nat} (h : ∀ k, k < n → m.get (i + k) = m'.get (i + k)) :
    m.getRange i n = m'.getRange i n := by
  apply List.map_congr_left
  intro k hk
  exact h k (List.mem_range.1 hk)

theorem Memory.getRange_append (m : Memory) (i a b : Nat) :
    m.getRange i (a + b) = m.getRange i a ++ m.getRange (i + a) b := by
  simp [Memory.getRange, List.range_add, Function.comp_def, Nat.add_assoc]

@[simp] theorem Memory.setRange_fill (m : Memory) (i : Nat) (bs : List Byte) : (m.setRange i bs).fill = m.fill := by
  induction bs generalizing m i with
  | nil => rfl
  | cons b bs ih => simp [Memory.setRange, ih]

/-- Read after a range write. -/
theorem Memory.get_setRange (m : Memory) (i j : Nat) (bs : List Byte) :
    (m.setRange i bs).get j = if i ≤ j ∧ j < i + bs.length then bs.getD (j - i) 0 else m.get j := by
  induction bs generalizing m i with
  | nil => simp [Memory.setRange]
  | cons b bs ih =>
    rw [Memory.setRange, ih, Memory.get_set]
    by_cases hj : j = i
    · subst hj; simp
    · by_cases h : i ≤ j ∧ j < i + (b :: bs).length
      · have h' : i + 1 ≤ j ∧ j < i + 1 + bs.length := by simp at h; omega
        rw [if_pos h', if_pos h]
        obtain ⟨k, rfl⟩ : ∃ k, j = i + 1 + k := ⟨j - (i + 1), by omega⟩
        have e1 : i + 1 + k - (i + 1) = k := by omega
        have e2 : i + 1 + k - i = k + 1 := by omega
        simp [e1, e2]
      · have h' : ¬ (i + 1 ≤ j ∧ j < i + 1 + bs.length) := by simp at h; omega
        rw [if_neg h', if_neg h, if_neg hj]

theorem Memory.get_setRange_outside (m : Memory) {i j : Nat} (bs : List Byte) (h : j < i ∨ i + bs.length ≤ j) :
    (m.setRange i bs).get j = m.get j := by
  rw [Memory.get_setRange, if_neg (by omega)]

/-- A range reads back as written. -/
@[simp] theorem Memory.getRange_setRange (m : Memory) (i : Nat) (bs : List Byte) :
    (m.setRange i bs).getRange i bs.length = bs := by
  apply List.ext_getElem (by simp)
  intro k h1 h2
  rw [Memory.getElem_getRange, Memory.get_setRange, if_pos (by simp at h1; omega)]
  simp [h2]

theorem Memory.getRange_setRange_below (m : Memory) (i n j : Nat) (bs : List Byte) (h : j + n ≤ i) :
    (m.setRange i bs).getRange j n = m.getRange j n :=
  Memory.getRange_congr fun _ _ => Memory.get_setRange_outside m bs (by omega)

theorem Memory.getRange_set_below (m : Memory) (i n j : Nat) (b : Byte) (h : j + n ≤ i) :
    (m.set i b).getRange j n = m.getRange j n :=
  Memory.getRange_congr fun _ _ => Memory.get_set_ne m b (by omega)

/-- A range one longer, after its last byte is written. -/
theorem Memory.getRange_set_last (m : Memory) (n : Nat) (b : Byte) :
    (m.set n b).getRange 0 (n + 1) = m.getRange 0 n ++ [b] := by
  rw [Memory.getRange_append, Memory.getRange_set_below _ _ _ _ _ (by omega)]
  simp [Memory.getRange]

/-! ### The canonical form is kept -/

theorem risingCells_cons {c : Host.Cell} {l : List Host.Cell} :
    risingCells (c :: l) = true ↔ (∀ d ∈ l.head?, c.1 < d.1) ∧ risingCells l = true := by
  cases l <;> simp [risingCells]

theorem risingCells_insertCell (i : Nat) (b : Byte) :
    ∀ l, risingCells l = true → risingCells (insertCell i b l) = true
  | [], _ => rfl
  | c :: l, h => by
    unfold insertCell
    split
    · rename_i hlt; exact risingCells_cons.2 ⟨by simpa using hlt, h⟩
    · obtain ⟨h1, h2⟩ := risingCells_cons.1 h
      split
      · rename_i he; subst he; exact risingCells_cons.2 ⟨h1, h2⟩
      · rename_i hn1 hn2
        refine risingCells_cons.2 ⟨?_, risingCells_insertCell i b l h2⟩
        cases l with
        | nil => simp [insertCell]; omega
        | cons d l =>
          have hd : c.1 < d.1 := h1 d (by simp)
          unfold insertCell
          split
          · simp; omega
          · split
            · simp; omega
            · simpa using hd

theorem risingCells_all_lt {c : Host.Cell} :
    ∀ {l : List Host.Cell}, risingCells (c :: l) = true → ∀ d ∈ l, c.1 < d.1
  | [], _ => by simp
  | d :: l, h => by
    obtain ⟨h1, h2⟩ := risingCells_cons.1 h
    have hd : c.1 < d.1 := h1 d (by simp)
    intro x hx
    rcases List.mem_cons.1 hx with rfl | hx
    · exact hd
    · exact Nat.lt_trans hd (risingCells_all_lt h2 x hx)

theorem mem_of_mem_removeCell {i : Nat} {d : Host.Cell} : ∀ {l}, d ∈ removeCell i l → d ∈ l
  | [], h => h
  | c :: l, h => by
    unfold removeCell at h
    split at h
    · exact List.mem_cons_of_mem _ (mem_of_mem_removeCell h)
    · rcases List.mem_cons.1 h with rfl | h
      · simp
      · exact List.mem_cons_of_mem _ (mem_of_mem_removeCell h)

theorem mem_insertCell {i : Nat} {b : Byte} {d : Host.Cell} : ∀ {l}, d ∈ insertCell i b l → d = (i, b) ∨ d ∈ l
  | [], h => by simpa [insertCell] using h
  | c :: l, h => by
    unfold insertCell at h
    split at h
    · simpa using h
    · split at h
      · rcases List.mem_cons.1 h with h | h
        · exact .inl h
        · exact .inr (List.mem_cons_of_mem _ h)
      · rcases List.mem_cons.1 h with rfl | h
        · simp
        · rcases mem_insertCell h with h | h
          · exact .inl h
          · exact .inr (List.mem_cons_of_mem _ h)

theorem risingCells_removeCell (i : Nat) :
    ∀ l, risingCells l = true → risingCells (removeCell i l) = true
  | [], _ => rfl
  | c :: l, h => by
    have ih := risingCells_removeCell i l (risingCells_cons.1 h).2
    unfold removeCell
    split
    · exact ih
    · refine risingCells_cons.2 ⟨?_, ih⟩
      intro d hd
      exact risingCells_all_lt h d (mem_of_mem_removeCell (List.mem_of_mem_head? hd))

theorem Memory.wf_set {m : Memory} (i : Nat) (b : Byte) (h : m.wf = true) : (m.set i b).wf = true := by
  simp only [Memory.wf, Bool.and_eq_true, Bool.or_eq_true, decide_eq_true_eq, List.all_eq_true] at h ⊢
  obtain ⟨h1, h2⟩ := h
  unfold Memory.set
  split
  · rename_i hz
    refine ⟨risingCells_removeCell i _ h1, ?_⟩
    rcases h2 with h2 | h2
    · exact absurd hz.1 h2
    · exact .inr fun d hd => h2 d (mem_of_mem_removeCell hd)
  · rename_i hz
    refine ⟨risingCells_insertCell i b _ h1, ?_⟩
    by_cases hf : m.fill = .zero
    · rcases h2 with h2 | h2
      · exact absurd hf h2
      · refine .inr fun d hd => ?_
        rcases mem_insertCell hd with rfl | hd
        · exact fun hb => hz ⟨hf, hb⟩
        · exact h2 d hd
    · exact .inl hf

theorem Memory.below_set {m : Memory} {i n : Nat} (b : Byte) (h : m.below n = true) (hi : i < n) :
    (m.set i b).below n = true := by
  simp only [Memory.below, List.all_eq_true, decide_eq_true_eq] at h ⊢
  unfold Memory.set
  split
  · exact fun d hd => h d (mem_of_mem_removeCell hd)
  · intro d hd
    rcases mem_insertCell hd with rfl | hd
    · exact hi
    · exact h d hd

/-- A write within capacity keeps a buffer sound. -/
theorem Memory.sound_set {m : Memory} {i n : Nat} (b : Byte) (h : m.sound n) (hi : i < n) : (m.set i b).sound n :=
  ⟨Memory.wf_set i b h.1, Memory.below_set b h.2 hi⟩

/-- A range write within capacity keeps a buffer sound. -/
theorem Memory.sound_setRange {n : Nat} (bs : List Byte) :
    ∀ {m : Memory} {i : Nat}, m.sound n → i + bs.length ≤ n → (m.setRange i bs).sound n := by
  induction bs with
  | nil => intro m i h _; exact h
  | cons b bs ih =>
    intro m i h hi
    simp at hi
    exact ih (Memory.sound_set b h (by omega)) (by omega)

@[simp] theorem Memory.sound_zero (n : Nat) : Memory.zero.sound n := ⟨rfl, rfl⟩

theorem Memory.sound_fresh (f : Fill) (n : Nat) : Memory.sound { cells := [], fill := f } n :=
  ⟨by simp [Memory.wf, risingCells], by simp [Memory.below]⟩

/-- Over a zero fill, two sound buffers that read alike are equal data. -/
theorem Memory.ext_of_get {m m' : Memory} (h : m.wf = true) (h' : m'.wf = true) (hf : m.fill = .zero) (hf' : m'.fill = .zero)
    (hget : ∀ i, m.get i = m'.get i) : m = m' := by
  obtain ⟨l, f⟩ := m
  obtain ⟨l', f'⟩ := m'
  simp only at hf hf'
  subst hf hf'
  simp only [Memory.wf, ne_eq, not_true_eq_false, decide_false, Bool.false_or, Bool.and_eq_true] at h h'
  congr 1
  have none_lt : ∀ {i : Nat} {l : List Host.Cell}, (∀ d ∈ l, i < d.1) → findCell i l = none := by
    intro i l hl
    induction l with
    | nil => rfl
    | cons c l ih =>
      have := hl c (by simp)
      rw [findCell, if_neg (by omega), ih fun d hd => hl d (List.mem_cons_of_mem _ hd)]
  have head_ne : ∀ {c : Host.Cell} {l l' : List Host.Cell}, ((c :: l).all fun c => decide (c.2 ≠ 0)) = true →
      (∀ i, (findCell i (c :: l)).getD 0 = (findCell i l').getD 0) → ¬ ∀ d ∈ l', c.1 < d.1 := by
    intro c l l' hn hg hlt
    have h1 := hg c.1
    rw [none_lt hlt] at h1
    simp [findCell] at h1
    simp [h1] at hn
  have key : ∀ (l l' : List Host.Cell), risingCells l = true → risingCells l' = true →
      (l.all fun c => decide (c.2 ≠ 0)) = true → (l'.all fun c => decide (c.2 ≠ 0)) = true →
      (∀ i, (findCell i l).getD 0 = (findCell i l').getD 0) → l = l' := by
    intro l
    induction l with
    | nil =>
      intro l' _ _ _ hn' hg
      cases l' with
      | nil => rfl
      | cons d l' => exact absurd (by simp) (head_ne hn' fun i => (hg i).symm)
    | cons c l ih =>
      intro l' hr hr' hn hn' hg
      cases l' with
      | nil => exact absurd (by simp) (head_ne hn hg)
      | cons d l' =>
        have hc := risingCells_all_lt hr
        have hd := risingCells_all_lt hr'
        have hcd : c.1 = d.1 := by
          rcases Nat.lt_trichotomy c.1 d.1 with hlt | heq | hgt
          · refine absurd ?_ (head_ne hn hg)
            intro x hx
            rcases List.mem_cons.1 hx with rfl | hx
            · exact hlt
            · exact Nat.lt_trans hlt (hd x hx)
          · exact heq
          · refine absurd ?_ (head_ne hn' fun i => (hg i).symm)
            intro x hx
            rcases List.mem_cons.1 hx with rfl | hx
            · exact hgt
            · exact Nat.lt_trans hgt (hc x hx)
        have hb : c.2 = d.2 := by simpa [findCell, hcd] using hg c.1
        have : c = d := Prod.ext hcd hb
        subst this
        congr 1
        refine ih l' (risingCells_cons.1 hr).2 (risingCells_cons.1 hr').2 (by simp at hn ⊢; exact hn.2)
          (by simp at hn' ⊢; exact hn'.2) fun i => ?_
        by_cases hi : c.1 = i
        · subst hi; rw [none_lt hc, none_lt hd]
        · simpa [findCell, hi] using hg i
  exact key l l' h.1 h'.1 h.2 h'.2 hget

end Sys2Proof.Machine
end

