-- ==== Sys2Proof/Laws/Operands.lean ====
section
/-! SUPPORT. Byte order, headers, frames and TLV entries: each layout reads back what it wrote. -/

namespace Sys2Proof.Machine

/-! ### Big-endian numbers -/

@[simp] theorem length_beBytes (n v : Nat) : (beBytes n v).length = n := by
  induction n with
  | zero => rfl
  | succ n ih => simp [beBytes, ih]

theorem foldl_be (l : List Byte) (a : Nat) :
    l.foldl (fun acc b => 256 * acc + b.toNat) a = a * 256 ^ l.length + beVal l := by
  induction l generalizing a with
  | nil => simp [beVal]
  | cons b l ih =>
    have h1 : beVal (b :: l) = b.toNat * 256 ^ l.length + beVal l := by
      rw [beVal, List.foldl_cons, ih]; simp
    rw [List.foldl_cons, ih, h1, List.length_cons, pow_succ]
    ring

theorem beVal_cons (b : Byte) (l : List Byte) : beVal (b :: l) = b.toNat * 256 ^ l.length + beVal l := by
  rw [beVal, List.foldl_cons, foldl_be]; simp

@[simp] theorem beVal_nil : beVal [] = 0 := rfl

/-- `be_val` inverts `be_N` on a number that `N` bytes hold (R12). -/
theorem beVal_beBytes {n v : Nat} (h : v < 256 ^ n) : beVal (beBytes n v) = v := by
  have key : ∀ n v, beVal (beBytes n v) = v % 256 ^ n := by
    intro n
    induction n with
    | zero => intro v; simp [beBytes, Nat.mod_one]
    | succ n ih =>
      intro v
      rw [beBytes, beVal_cons, ih, length_beBytes, BitVec.toNat_ofNat, pow_succ 256 n, Nat.mod_mul]
      ring
  rw [key, Nat.mod_eq_of_lt h]

theorem two_pow_eight_mul (n : Nat) : 2 ^ (8 * n) = 256 ^ n := by rw [pow_mul]; norm_num

theorem beVal_lt (l : List Byte) : beVal l < 256 ^ l.length := by
  induction l with
  | nil => simp
  | cons b l ih =>
    rw [beVal_cons, List.length_cons, pow_succ]
    have := b.isLt
    have h1 : b.toNat * 256 ^ l.length ≤ 255 * 256 ^ l.length := Nat.mul_le_mul_right _ (by omega)
    omega

/-! ### The 16-bit halves -/

theorem toNat_hiByte (v : Half) : (hiByte v).toNat = v.toNat / 256 := by
  have := v.isLt
  simp only [hiByte, BitVec.extractLsb'_toNat, Nat.shiftRight_eq_div_pow]
  omega

theorem toNat_loByte (v : Half) : (loByte v).toNat = v.toNat % 256 := by
  simp only [loByte, BitVec.extractLsb'_toNat, Nat.shiftRight_eq_div_pow]
  omega

/-- `hi ‖ lo` is `256 * hi + lo` (R91). -/
theorem toNat_joinBytes (a b : Byte) : (joinBytes a b).toNat = 256 * a.toNat + b.toNat := by
  have hb := b.isLt
  simp only [joinBytes, BitVec.toNat_append]
  rw [← Nat.shiftLeft_add_eq_or_of_lt hb, Nat.shiftLeft_eq]
  omega

@[simp] theorem joinBytes_hi_lo (v : Half) : joinBytes (hiByte v) (loByte v) = v := by
  apply BitVec.eq_of_toNat_eq
  rw [toNat_joinBytes, toNat_hiByte, toNat_loByte]
  omega

@[simp] theorem hiByte_join (a b : Byte) : hiByte (joinBytes a b) = a := by
  have := b.isLt
  apply BitVec.eq_of_toNat_eq
  rw [toNat_hiByte, toNat_joinBytes]
  omega

@[simp] theorem loByte_join (a b : Byte) : loByte (joinBytes a b) = b := by
  have := b.isLt
  apply BitVec.eq_of_toNat_eq
  rw [toNat_loByte, toNat_joinBytes]
  omega

/-! ### Headers and frames -/

@[simp] theorem length_headerBytes (h : Header) : (headerBytes h).length = hdrLen := rfl

@[simp] theorem headerOf_headerBytes (h : Header) : headerOf (headerBytes h) = h := by simp [headerOf, headerBytes]

@[simp] theorem headerOf_headerBytes_append (h : Header) (p : List Byte) : headerOf (headerBytes h ++ p) = h := by
  simp [headerOf, headerBytes]

@[simp] theorem headerOf_frameBytes (h : Header) (p : List Byte) : headerOf (frameBytes h p) = h :=
  headerOf_headerBytes_append h p

@[simp] theorem drop_frameBytes (h : Header) (p : List Byte) : (frameBytes h p).drop hdrLen = p := rfl

@[simp] theorem length_frameBytes (h : Header) (p : List Byte) : (frameBytes h p).length = hdrLen + p.length := by
  simp [frameBytes]

/-- Encoding the decoding of a frame gives the frame back (R92). -/
theorem frameBytes_headerOf {f : List Byte} (h : hdrLen ≤ f.length) : frameBytes (headerOf f) (f.drop hdrLen) = f := by
  match f, h with
  | a :: b :: c :: d :: e :: g :: rest, _ => simp [frameBytes, headerBytes, headerOf, hdrLen]

theorem length_streamBytes (c : Config) (h : Header) (p : List Byte) :
    (streamBytes c h p).length = shdr c + p.length := by
  simp [streamBytes, shdr]; omega

/-! ### TLV entries -/

@[simp] theorem length_tlvBytes (c : Config) (tag : Nat) (v : List Byte) : (tlvBytes c tag v).length = ovh c + v.length := by
  simp [tlvBytes, ovh]; omega

theorem slice_append_right (pre mid post : List Byte) :
    slice (pre ++ mid ++ post) pre.length mid.length = mid := by
  simp [slice]

/-- The three parts of an entry that stands behind `pre` (R100). -/
theorem slice_tlvBytes (c : Config) (pre post : List Byte) (tag : Nat) (v : List Byte) :
    slice (pre ++ (tlvBytes c tag v ++ post)) pre.length c.tagW = beBytes c.tagW tag ∧
    slice (pre ++ (tlvBytes c tag v ++ post)) (pre.length + c.tagW) c.lenW = beBytes c.lenW v.length ∧
    slice (pre ++ (tlvBytes c tag v ++ post)) (pre.length + ovh c) v.length = v := by
  refine ⟨?_, ?_, ?_⟩
  · have := slice_append_right pre (beBytes c.tagW tag) (beBytes c.lenW v.length ++ v ++ post)
    simpa [tlvBytes] using this
  · have := slice_append_right (pre ++ beBytes c.tagW tag) (beBytes c.lenW v.length) (v ++ post)
    simpa [tlvBytes] using this
  · have := slice_append_right (pre ++ beBytes c.tagW tag ++ beBytes c.lenW v.length) v post
    simpa [tlvBytes, ovh, Nat.add_assoc] using this

/-- One iteration of the scan at an entry that is whole (R156). -/
theorem ieFind_entry (c : Config) (pre post : List Byte) {tag : Nat} {v : List Byte} (want n fuel : Nat)
    (he : encodable c (tag, v)) :
    ieFind c (pre ++ (tlvBytes c tag v ++ post)) want n (fuel + 1) pre.length =
      if tag = want then (if v.length = n then some v else none)
      else ieFind c (pre ++ (tlvBytes c tag v ++ post)) want n fuel (pre ++ tlvBytes c tag v).length := by
  obtain ⟨h1, h2, h3⟩ := slice_tlvBytes c pre post tag v
  have ht : beVal (beBytes c.tagW tag) = tag := by
    have := he.1
    simp only [Config.tagFits, two_pow_eight_mul, decide_eq_true_eq] at this
    exact beVal_beBytes this
  have hl : beVal (beBytes c.lenW v.length) = v.length := by
    have := he.2
    simp only [Config.lengthFits, two_pow_eight_mul, decide_eq_true_eq] at this
    exact beVal_beBytes this
  rw [ieFind, h1, h2, ht, hl]
  rw [if_neg (by simp only [List.length_append, length_tlvBytes]; omega), if_neg (by simp only [List.length_append, length_tlvBytes]; omega), h3]
  simp [Nat.add_assoc]

/-- One iteration of the scan where no whole entry stands (R158). -/
theorem ieFind_defect (c : Config) (payload : List Byte) (want n fuel pos : Nat)
    (h : pos + ovh c > payload.length ∨
      pos + ovh c + beVal (slice payload (pos + c.tagW) c.lenW) > payload.length) :
    ieFind c payload want n fuel pos = none := by
  cases fuel with
  | zero => rfl
  | succ fuel =>
    rw [ieFind]
    split
    · rfl
    · rename_i h1
      exact if_pos (h.resolve_left h1)

/-- The scan goes past entries of other tags. -/
theorem ieFind_skip (c : Config) (want n : Nat) (post : List Byte) :
    ∀ (ies : List (Nat × List Byte)) (pre : List Byte) (fuel : Nat),
      (∀ tv ∈ ies, encodable c tv ∧ tv.1 ≠ want) →
      ieFind c (pre ++ (listBytes c ies ++ post)) want n (fuel + ies.length) pre.length =
        ieFind c (pre ++ (listBytes c ies ++ post)) want n fuel (pre ++ listBytes c ies).length
  | [], pre, fuel, _ => by simp [listBytes]
  | tv :: ies, pre, fuel, h => by
    obtain ⟨tag, v⟩ := tv
    have h0 := h (tag, v) (by simp)
    have ih := ieFind_skip c want n post ies (pre ++ tlvBytes c tag v) fuel fun x hx => h x (List.mem_cons_of_mem _ hx)
    have e : listBytes c ((tag, v) :: ies) ++ post = tlvBytes c tag v ++ (listBytes c ies ++ post) := by simp [listBytes]
    have e' : pre ++ listBytes c ((tag, v) :: ies) = pre ++ tlvBytes c tag v ++ listBytes c ies := by simp [listBytes]
    have step := ieFind_entry c pre (listBytes c ies ++ post) want n (fuel + ies.length) h0.1
    rw [if_neg h0.2] at step
    rw [e', List.length_cons, ← Nat.add_assoc, e, step]
    simpa [List.append_assoc] using ih

/-- Entries of a well-formed configuration are at least two bytes, so a payload holds few of them (R156). -/
theorem length_listBytes (c : Config) (ies : List (Nat × List Byte)) :
    (listBytes c ies).length = (ies.map fun tv => ovh c + tv.2.length).sum := by
  simp [listBytes, List.length_flatMap]

theorem mul_length_le_listBytes (c : Config) (ies : List (Nat × List Byte)) :
    ovh c * ies.length ≤ (listBytes c ies).length := by
  rw [length_listBytes]
  induction ies with
  | nil => simp
  | cons tv ies ih =>
    rw [List.length_cons, List.map_cons, List.sum_cons, Nat.mul_succ]
    omega

/-- The bound of R156 on iterations covers every entry and one more look. -/
theorem ieFuel_covers {c : Config} (ies : List (Nat × List Byte)) (post : List Byte) (h : 0 < ovh c) :
    ies.length + 1 ≤ ieFuel c (listBytes c ies ++ post) := by
  have h1 := mul_length_le_listBytes c ies
  unfold ieFuel
  rw [List.length_append]
  have : ies.length ≤ ((listBytes c ies).length + post.length) / ovh c := by
    rw [Nat.le_div_iff_mul_le h, Nat.mul_comm]; omega
  omega

/-- The whole scan over whole entries followed by something that is no entry or has not to be reached:
`R156` to `R158` in one equation for a list whose matching entry exists. -/
theorem ieFind_first {c : Config} (ies : List (Nat × List Byte)) (tag : Nat) (v post : List Byte) (n : Nat) (h : 0 < ovh c)
    (hies : ∀ tv ∈ ies, encodable c tv ∧ tv.1 ≠ tag) (he : encodable c (tag, v)) :
    ieFind c (listBytes c ies ++ (tlvBytes c tag v ++ post)) tag n
      (ieFuel c (listBytes c ies ++ (tlvBytes c tag v ++ post))) 0 = if v.length = n then some v else none := by
  have hf := ieFuel_covers (c := c) ies (tlvBytes c tag v ++ post) h
  obtain ⟨k, hk⟩ : ∃ k, ieFuel c (listBytes c ies ++ (tlvBytes c tag v ++ post)) = k + 1 + ies.length :=
    ⟨ieFuel c (listBytes c ies ++ (tlvBytes c tag v ++ post)) - (ies.length + 1), by omega⟩
  have h1 := ieFind_skip c tag n (tlvBytes c tag v ++ post) ies [] (k + 1) hies
  have h2 := ieFind_entry c (listBytes c ies) post tag n k he
  rw [hk]
  simpa using h1.trans (by simpa using h2)

/-- The whole scan when no whole entry has the tag and what follows the whole entries is no whole entry. -/
theorem ieFind_absent {c : Config} (ies : List (Nat × List Byte)) (tag : Nat) (post : List Byte) (n : Nat) (h : 0 < ovh c)
    (hies : ∀ tv ∈ ies, encodable c tv ∧ tv.1 ≠ tag)
    (hpost : post.length < ovh c ∨ post.length < ovh c + beVal (slice post c.tagW c.lenW)) :
    ieFind c (listBytes c ies ++ post) tag n (ieFuel c (listBytes c ies ++ post)) 0 = none := by
  have hf := ieFuel_covers (c := c) ies post h
  obtain ⟨k, hk⟩ : ∃ k, ieFuel c (listBytes c ies ++ post) = k + 1 + ies.length :=
    ⟨ieFuel c (listBytes c ies ++ post) - (ies.length + 1), by omega⟩
  have h1 := ieFind_skip c tag n post ies [] (k + 1) hies
  rw [hk]
  simp only [List.nil_append, List.length_nil] at h1
  rw [h1]
  apply ieFind_defect
  have hs : slice (listBytes c ies ++ post) ((listBytes c ies).length + c.tagW) c.lenW = slice post c.tagW c.lenW := by
    simp [slice, ← List.drop_drop]
  rw [hs, List.length_append]
  omega

/-- A value found has the length asked for. -/
theorem ieFind_length {c : Config} {p : List Byte} {tag n : Nat} {v : List Byte} :
    ∀ {fuel pos}, ieFind c p tag n fuel pos = some v → v.length = n
  | 0, _, h => by simp [ieFind] at h
  | fuel + 1, pos, h => by
    rw [ieFind] at h
    split at h
    · simp at h
    · dsimp only at h
      split at h
      · simp at h
      · rename_i h2
        split at h
        · split at h
          · rename_i hl
            have hv := Option.some.inj h
            rw [← hv, ← hl, slice, List.length_take, List.length_drop]
            omega
          · simp at h
        · exact ieFind_length h

end Sys2Proof.Machine
end

