-- ==== Sys2Proof/Laws/State.lean ====
section
/-! SUPPORT. One lemma per field per update of `State`. -/

namespace Sys2Proof.Machine

section withSlot
variable (s : State) (e : Slot) (v : Envelope)

@[simp] theorem State.withSlot_cfg : (s.withSlot e v).cfg = s.cfg := by cases e <;> rfl
@[simp] theorem State.withSlot_ctx : (s.withSlot e v).ctx = s.ctx := by cases e <;> rfl
@[simp] theorem State.withSlot_iel : (s.withSlot e v).iel = s.iel := by cases e <;> rfl
@[simp] theorem State.withSlot_port : (s.withSlot e v).port = s.port := by cases e <;> rfl
@[simp] theorem State.withSlot_resp : (s.withSlot e v).resp = s.resp := by cases e <;> rfl
@[simp] theorem State.withSlot_rxDraws : (s.withSlot e v).rxDraws = s.rxDraws := by cases e <;> rfl
@[simp] theorem State.withSlot_txDraws : (s.withSlot e v).txDraws = s.txDraws := by cases e <;> rfl
@[simp] theorem State.slot_withSlot : (s.withSlot e v).slot e = v := by cases e <;> rfl
@[simp] theorem State.draws_withSlot (d : Slot) : (s.withSlot e v).draws d = s.draws d := by cases e <;> cases d <;> rfl

theorem State.slot_withSlot_ne {d : Slot} (h : d ≠ e) : (s.withSlot e v).slot d = s.slot d := by
  cases e <;> cases d <;> first | rfl | exact absurd rfl h

theorem State.slot_withSlot_ite (d : Slot) : (s.withSlot e v).slot d = if d = e then v else s.slot d := by
  cases e <;> cases d <;> rfl

@[simp] theorem State.withSlot_rxe_rxe : (s.withSlot .rxe v).rxe = v := rfl
@[simp] theorem State.withSlot_rxe_txe : (s.withSlot .rxe v).txe = s.txe := rfl
@[simp] theorem State.withSlot_txe_txe : (s.withSlot .txe v).txe = v := rfl
@[simp] theorem State.withSlot_txe_rxe : (s.withSlot .txe v).rxe = s.rxe := rfl
@[simp] theorem State.withSlot_withSlot (w : Envelope) : (s.withSlot e w).withSlot e v = s.withSlot e v := by
  cases e <;> rfl
@[simp] theorem State.withSlot_slot : s.withSlot e (s.slot e) = s := by cases e <;> rfl

end withSlot

section bumpDraws
variable (s : State) (e : Slot)

@[simp] theorem State.bumpDraws_cfg : (s.bumpDraws e).cfg = s.cfg := by cases e <;> rfl
@[simp] theorem State.bumpDraws_ctx : (s.bumpDraws e).ctx = s.ctx := by cases e <;> rfl
@[simp] theorem State.bumpDraws_iel : (s.bumpDraws e).iel = s.iel := by cases e <;> rfl
@[simp] theorem State.bumpDraws_port : (s.bumpDraws e).port = s.port := by cases e <;> rfl
@[simp] theorem State.bumpDraws_resp : (s.bumpDraws e).resp = s.resp := by cases e <;> rfl
@[simp] theorem State.bumpDraws_rxe : (s.bumpDraws e).rxe = s.rxe := by cases e <;> rfl
@[simp] theorem State.bumpDraws_txe : (s.bumpDraws e).txe = s.txe := by cases e <;> rfl
@[simp] theorem State.slot_bumpDraws (d : Slot) : (s.bumpDraws e).slot d = s.slot d := by cases e <;> cases d <;> rfl
@[simp] theorem State.memory_bumpDraws (sp : Space) : (s.bumpDraws e).memory sp = s.memory sp := by
  cases e <;> cases sp <;> rfl

end bumpDraws

section withMemory
variable (s : State) (sp : Space) (m : Memory)

@[simp] theorem State.withMemory_cfg : (s.withMemory sp m).cfg = s.cfg := by cases sp <;> rfl
@[simp] theorem State.withMemory_iel : (s.withMemory sp m).iel = s.iel := by cases sp <;> rfl
@[simp] theorem State.withMemory_port : (s.withMemory sp m).port = s.port := by cases sp <;> rfl
@[simp] theorem State.withMemory_resp : (s.withMemory sp m).resp = s.resp := by cases sp <;> rfl
@[simp] theorem State.withMemory_rxDraws : (s.withMemory sp m).rxDraws = s.rxDraws := by cases sp <;> rfl
@[simp] theorem State.withMemory_txDraws : (s.withMemory sp m).txDraws = s.txDraws := by cases sp <;> rfl
@[simp] theorem State.memory_withMemory : (s.withMemory sp m).memory sp = m := by cases sp <;> rfl

theorem State.memory_withMemory_ne {sq : Space} (h : sq ≠ sp) : (s.withMemory sp m).memory sq = s.memory sq := by
  cases sp <;> cases sq <;> first | rfl | exact absurd rfl h

@[simp] theorem State.memory_dataSpace (e : Slot) : s.memory (dataSpace e) = (s.slot e).data := by cases e <;> rfl
@[simp] theorem State.memory_ctxHdr : s.memory .ctxHdr = s.ctx.hdr := rfl
@[simp] theorem State.memory_ctxPayload : s.memory .ctxPayload = s.ctx.payload := rfl

theorem State.withMemory_dataSpace (e : Slot) : s.withMemory (dataSpace e) m = s.withSlot e { s.slot e with data := m } := by
  cases e <;> rfl
@[simp] theorem State.withMemory_ctxHdr : s.withMemory .ctxHdr m = { s with ctx := { s.ctx with hdr := m } } := rfl
@[simp] theorem State.withMemory_ctxPayload : s.withMemory .ctxPayload m = { s with ctx := { s.ctx with payload := m } } := rfl

end withMemory

section recordUpdates
variable (s : State) (e : Slot)

@[simp] theorem State.slot_rxe : s.slot .rxe = s.rxe := rfl
@[simp] theorem State.slot_txe : s.slot .txe = s.txe := rfl

/-- Updating any field but the slots leaves both slots as they were. -/
@[simp] theorem State.slot_mk (c : Config) (x : Ctx) (l : Iel) (rd td : Nat) (p : List Transaction) (r : Option Response) :
    State.slot ⟨c, s.rxe, s.txe, x, l, rd, td, p, r⟩ e = s.slot e := by cases e <;> rfl

/-- Updating any field but the draw counts leaves them as they were. -/
@[simp] theorem State.draws_mk (c : Config) (v w : Envelope) (x : Ctx) (l : Iel) (p : List Transaction)
    (r : Option Response) : State.draws ⟨c, v, w, x, l, s.rxDraws, s.txDraws, p, r⟩ e = s.draws e := by cases e <;> rfl

@[simp] theorem Space.capacity_dataSpace (c : Config) : (dataSpace e).capacity c = c.cap := by cases e <;> rfl
@[simp] theorem Space.capacity_ctxHdr (c : Config) : Space.ctxHdr.capacity c = shdr c := rfl
@[simp] theorem Space.capacity_ctxPayload (c : Config) : Space.ctxPayload.capacity c = c.cap := rfl

end recordUpdates

end Sys2Proof.Machine
end

