-- ==== Sys2Proof/Laws/Ops.lean ====
section
/-! SUPPORT. One lemma per shared operation that says once what it can do. -/

namespace Sys2Proof.Machine

/-! ### Ending an operation -/

@[simp] theorem requireAll_nil (k : Answer) : requireAll [] k = k := rfl

theorem requireAll_cons (b : Bool) (why : Refusal) (rest : List (Bool × Refusal)) (k : Answer) :
    requireAll ((b, why) :: rest) k = if b then requireAll rest k else .refused why := rfl

/-- An operation with its preconditions goes on exactly when they all hold. -/
theorem requireAll_next {l : List (Bool × Refusal)} {k : Answer} {t : State} :
    requireAll l k = .next t ↔ (∀ p ∈ l, p.1 = true) ∧ k = .next t := by
  induction l with
  | nil => simp
  | cons p l ih =>
    obtain ⟨b, why⟩ := p
    cases b <;> simp [requireAll_cons, ih]

theorem requireAll_fault {l : List (Bool × Refusal)} {k : Answer} {f : Fault} :
    requireAll l k = .fault f ↔ (∀ p ∈ l, p.1 = true) ∧ k = .fault f := by
  induction l with
  | nil => simp
  | cons p l ih =>
    obtain ⟨b, why⟩ := p
    cases b <;> simp [requireAll_cons, ih]

@[simp] theorem orFault_ok {α : Type} (a : α) (k : α → Answer) : orFault (.ok a) k = k a := rfl

@[simp] theorem orFault_error {α : Type} (f : Fault) (k : α → Answer) : orFault (.error f) k = .fault f := rfl

@[simp] theorem answer_eq (s : State) (r : Response) : s.answer r = .next { s with resp := some r } := rfl

@[simp] theorem reject_eq (s : State) (c : Cause) :
    s.reject c = .next { s with resp := some { ok := false, cause := some c } } := rfl

@[simp] theorem rejectFeed_eq (s : State) (c : Cause) :
    s.rejectFeed c = .next { s with ctx := .zero, resp := some { ok := false, cause := some c } } := rfl

@[simp] theorem okBit_eq (b : Bool) : Response.okBit b = { ok := b } := rfl
@[simp] theorem scalar_eq (v : Half) : Response.scalar v = { ok := true, r := some v } := rfl
@[simp] theorem buffer_eq (v : List Byte) : Response.buffer v = { ok := true, obuf := some v, olen := some v.length } := rfl

/-! ### Bounds-checked accesses -/

theorem readBytes_ok {s : State} {sp : Space} {i n : Nat} (h : i + n ≤ sp.capacity s.cfg) :
    s.readBytes sp i n = .ok ((s.memory sp).getRange i n) := if_pos h

theorem readBytes_error {s : State} {sp : Space} {i n : Nat} (h : sp.capacity s.cfg < i + n) :
    s.readBytes sp i n = .error (.outOfBounds sp (i + n)) := if_neg (by omega)

theorem writeBytes_ok {s : State} {sp : Space} {i : Nat} {bytes : List Byte} (h : i + bytes.length ≤ sp.capacity s.cfg) :
    s.writeBytes sp i bytes = .ok (s.withMemory sp ((s.memory sp).setRange i bytes)) := if_pos h

theorem writeBytes_error {s : State} {sp : Space} {i : Nat} {bytes : List Byte}
    (h : sp.capacity s.cfg < i + bytes.length) :
    s.writeBytes sp i bytes = .error (.outOfBounds sp (i + bytes.length)) := if_neg (by omega)

/-- A slot within capacity yields its payload. -/
theorem payload_ok {s : State} {e : Slot} (h : (s.slot e).dataLength ≤ s.cfg.cap) :
    s.payload e = .ok (s.slot e).payload := by
  rw [State.payload, readBytes_ok (by simpa using h)]
  simp [Envelope.payload]

@[simp] theorem Envelope.length_payload (v : Envelope) : v.payload.length = v.dataLength := by simp [Envelope.payload]

@[simp] theorem checksumOf_eq (c : Config) (h : Header) (p : List Byte) : checksumOf c h p = frameCsum c h p := rfl

@[simp] theorem frameCsum_header (c : Config) (v : Envelope) : frameCsum c v.header v.payload = v.csum c := rfl

/-! ### Delivery -/

/-- The envelope that a delivered frame leaves in slot `e` (R200, R225). -/
def deliveredEnvelope (e : Slot) (draw : Nat) (h : Header) (payload : List Byte) : Envelope :=
  { cookie := h.cookie, unitId := h.unitId, serviceId := h.serviceId, messageId := h.messageId, checksum := h.checksum,
    dataLength := payload.length, data := Memory.setRange { cells := [], fill := .free e draw } 0 payload }

/-- The state after a delivery. -/
def State.delivered (s : State) (e : Slot) (h : Header) (payload : List Byte) : State :=
  (s.withSlot e (deliveredEnvelope e (s.draws e) h payload)).bumpDraws e

theorem deliver_ok {s : State} {e : Slot} {h : Header} {payload : List Byte} (hl : payload.length ≤ s.cfg.cap) :
    s.deliver e h payload = .ok (s.delivered e h payload) := by
  rw [State.deliver, writeBytes_ok (by simpa using hl), State.withMemory_dataSpace]
  cases e <;> rfl

@[simp] theorem deliveredEnvelope_holds (e : Slot) (k : Nat) (h : Header) (p : List Byte) :
    (deliveredEnvelope e k h p).holds h p :=
  ⟨rfl, rfl, Memory.getRange_setRange _ _ _⟩

section delivered
variable (s : State) (e : Slot) (h : Header) (p : List Byte)

@[simp] theorem State.delivered_cfg : (s.delivered e h p).cfg = s.cfg := by simp [State.delivered]
@[simp] theorem State.delivered_ctx : (s.delivered e h p).ctx = s.ctx := by simp [State.delivered]
@[simp] theorem State.delivered_iel : (s.delivered e h p).iel = s.iel := by simp [State.delivered]
@[simp] theorem State.delivered_port : (s.delivered e h p).port = s.port := by simp [State.delivered]
@[simp] theorem State.slot_delivered : (s.delivered e h p).slot e = deliveredEnvelope e (s.draws e) h p := by
  simp [State.delivered]
theorem State.slot_delivered_ne {d : Slot} (hd : d ≠ e) : (s.delivered e h p).slot d = s.slot d := by
  simp [State.delivered, State.slot_withSlot_ne _ _ _ hd]
theorem State.draws_delivered_ne {d : Slot} (hd : d ≠ e) : (s.delivered e h p).draws d = s.draws d := by
  cases e <;> cases d <;> first | rfl | exact absurd rfl hd
@[simp] theorem State.delivered_rxe_rxe : (s.delivered .rxe h p).rxe = deliveredEnvelope .rxe s.rxDraws h p := rfl
@[simp] theorem State.delivered_rxe_txe : (s.delivered .rxe h p).txe = s.txe := rfl
@[simp] theorem State.delivered_rxe_txDraws : (s.delivered .rxe h p).txDraws = s.txDraws := rfl

end delivered

theorem deliveredEnvelope_sound (e : Slot) (k : Nat) (h : Header) {p : List Byte} {cap : Nat} (hl : p.length ≤ cap) :
    (deliveredEnvelope e k h p).data.sound cap :=
  Memory.sound_setRange p (Memory.sound_fresh _ _) (by omega)

/-! ### Envelopes -/

theorem Envelope.equiv_of_holds {a b : Envelope} {h : Header} {p : List Byte} (ha : a.holds h p) (hb : b.holds h p) :
    a.equiv b := by
  obtain ⟨a1, a2, a3⟩ := ha
  obtain ⟨b1, b2, b3⟩ := hb
  refine ⟨a1.trans b1.symm, a2.trans b2.symm, fun i hi => ?_⟩
  have h1 : a.payload[i]? = b.payload[i]? := by rw [a3, b3]
  have hi' : i < b.dataLength := by omega
  simpa [Envelope.payload, Memory.getRange, hi, hi'] using h1

theorem Envelope.holds_self (v : Envelope) : v.holds v.header v.payload := ⟨rfl, by simp, rfl⟩

theorem Envelope.equiv_refl (v : Envelope) : v.equiv v := ⟨rfl, rfl, fun _ _ => rfl⟩

/-- Equivalent envelopes have equal headers and payloads, which is all an operation reads. -/
theorem Envelope.equiv_payload {a b : Envelope} (h : a.equiv b) : a.payload = b.payload := by
  obtain ⟨_, h2, h3⟩ := h
  rw [Envelope.payload, Envelope.payload, ← h2]
  exact Memory.getRange_congr fun k hk => by simpa using h3 k hk

/-! ### Facts of a well-formed configuration -/

theorem wf_facts {c : Config} (h : c.wf = true) :
    1 ≤ c.cap ∧ 1 ≤ c.tagW ∧ c.tagW ≤ 4 ∧ 1 ≤ c.lenW ∧ c.lenW ≤ 4 ∧ 1 ≤ c.lenfW ∧ c.lenfW ≤ 4 ∧
      c.cap + c.lenfBias < 256 ^ c.lenfW := by
  simp only [Config.wf, Bool.and_eq_true, decide_eq_true_eq, two_pow_eight_mul] at h
  omega

theorem ovh_pos {c : Config} (h : c.wf = true) : 0 < ovh c := by
  have := wf_facts h
  simp only [ovh]; omega

theorem shdr_pos {c : Config} (h : c.wf = true) : 7 ≤ shdr c := by
  have := wf_facts h
  simp only [shdr, hdrLen]; omega

/-- Every legal payload length can be declared on the stream (R11). -/
theorem beVal_lengthField {c : Config} (h : c.wf = true) {d : Nat} (hd : d ≤ c.cap) :
    beVal (beBytes c.lenfW (d + c.lenfBias)) = d + c.lenfBias :=
  beVal_beBytes (by have := wf_facts h; omega)

end Sys2Proof.Machine
end

