-- ==== Sys2Proof/Laws/Effects.lean ====
section
/-! SUPPORT. What each operation does when it answers a next state, and when it answers one. -/

namespace Sys2Proof.Machine

/-! ### Operations on no slot -/

theorem execCtxInit_next {s t : State} :
    execCtxInit s = .next t ↔ s.cfg.wf = true ∧ { s with ctx := Ctx.zero, resp := some { ok := true } } = t := by
  simp [execCtxInit, requireAll_next, State.configOk]

theorem execH2N16_next {v : Half} {s t : State} :
    execH2N16 v s = .next t ↔ s.cfg.wf = true ∧ { s with resp := some { ok := true, r := some (swapBytes v) } } = t := by
  simp [execH2N16, requireAll_next, State.configOk]

theorem execN2H16_next {v : Half} {s t : State} :
    execN2H16 v s = .next t ↔ s.cfg.wf = true ∧ { s with resp := some { ok := true, r := some (swapBytes v) } } = t := by
  simp [execN2H16, requireAll_next, State.configOk]

theorem execIeNew_next {e : Slot} {n : Nat} {s t : State} :
    execIeNew e n s = .next t ↔ s.cfg.wf = true ∧ (s.slot e).dataLength ≤ s.cfg.cap ∧ n ≤ s.cfg.cap ∧
      { s with iel := { slot := e, cap := n, size := 0 }, resp := some { ok := true } } = t := by
  simp [execIeNew, requireAll_next, State.configOk, State.slotOk, Envelope.fits, and_assoc]

theorem execIeSize_next {s t : State} :
    execIeSize s = .next t ↔ s.cfg.wf = true ∧ (s.iel.size ≤ s.iel.cap ∧ s.iel.cap ≤ s.cfg.cap) ∧
      { s with resp := some { ok := true, r := some (sizeResult s.iel.size) } } = t := by
  simp [execIeSize, requireAll_next, State.configOk, State.listOk, Iel.fits, and_assoc]

/-! ### Operations on the slot an operand names -/

theorem execEnvClr_next {e : Slot} {s t : State} :
    execEnvClr e s = .next t ↔ s.cfg.wf = true ∧ (s.slot e).dataLength ≤ s.cfg.cap ∧
      { s.withSlot e .zero with resp := some { ok := true } } = t := by
  simp [execEnvClr, requireAll_next, State.configOk, State.slotOk, Envelope.fits, and_assoc]

theorem execEnvSet_next {e : Slot} {f : HeaderField} {v : Half} {s t : State} :
    execEnvSet e f v s = .next t ↔ s.cfg.wf = true ∧ (s.slot e).dataLength ≤ s.cfg.cap ∧
      { s.withSlot e ((s.slot e).setField f v) with resp := some { ok := true } } = t := by
  simp [execEnvSet, requireAll_next, State.configOk, State.slotOk, Envelope.fits, and_assoc]

/-- The shape of every operation that reads the payload of a slot: it goes on with the payload. -/
theorem requireSlot_next {e : Slot} {s t : State} {k : List Byte → Answer} :
    requireAll [s.configOk, s.slotOk e] (orFault (s.payload e) k) = .next t ↔
      s.cfg.wf = true ∧ (s.slot e).dataLength ≤ s.cfg.cap ∧ k (s.slot e).payload = .next t := by
  simp only [requireAll_next, State.configOk, State.slotOk, Envelope.fits, List.mem_cons, List.not_mem_nil, or_false,
    forall_eq_or_imp, forall_eq, decide_eq_true_eq, and_assoc]
  constructor
  · rintro ⟨h1, h2, h3⟩; exact ⟨h1, h2, by rwa [payload_ok h2] at h3⟩
  · rintro ⟨h1, h2, h3⟩; exact ⟨h1, h2, by rwa [payload_ok h2]⟩

theorem execCksCalc_next {e : Slot} {s t : State} :
    execCksCalc e s = .next t ↔ s.cfg.wf = true ∧ (s.slot e).dataLength ≤ s.cfg.cap ∧
      { s with resp := some { ok := true, r := some (((s.slot e).csum s.cfg).zeroExtend 16) } } = t := by
  rw [execCksCalc, requireSlot_next]; simp

theorem execCksVfy_next {e : Slot} {s t : State} :
    execCksVfy e s = .next t ↔ s.cfg.wf = true ∧ (s.slot e).dataLength ≤ s.cfg.cap ∧
      (if (s.slot e).csum s.cfg = (s.slot e).checksum then { s with resp := some { ok := true } }
        else { s with resp := some { ok := false, cause := some .csumMismatch } }) = t := by
  rw [execCksVfy, requireSlot_next]
  refine and_congr_right fun _ => and_congr_right fun _ => ?_
  simp only [checksumOf_eq, frameCsum_header]
  by_cases h : (s.slot e).csum s.cfg = (s.slot e).checksum
  · simp [h]
  · simp [h]

theorem execCksSeal_next {e : Slot} {s t : State} :
    execCksSeal e s = .next t ↔ s.cfg.wf = true ∧ (s.slot e).dataLength ≤ s.cfg.cap ∧
      { s.withSlot e { s.slot e with checksum := (s.slot e).csum s.cfg } with resp := some { ok := true } } = t := by
  rw [execCksSeal, requireSlot_next]; simp

theorem execSer_next {e : Slot} {s t : State} :
    execSer e s = .next t ↔ s.cfg.wf = true ∧ (s.slot e).dataLength ≤ s.cfg.cap ∧
      { s with resp := some (.buffer (frameBytes (s.slot e).header (s.slot e).payload)) } = t := by
  rw [execSer, requireSlot_next]; simp

theorem execSers_next {e : Slot} {s t : State} :
    execSers e s = .next t ↔ s.cfg.wf = true ∧ (s.slot e).dataLength ≤ s.cfg.cap ∧
      { s with resp := some (.buffer (streamBytes s.cfg (s.slot e).header (s.slot e).payload)) } = t := by
  rw [execSers, requireSlot_next]; simp

/-- The response of `IE.GET` on a payload (R156). -/
def getResponse (c : Config) (payload : List Byte) (tag n : Nat) : Response :=
  match ieFind c payload tag n (ieFuel c payload) 0 with
  | some v => .buffer v
  | none => .rejected .ieAbsent

theorem execIeGet_next {e : Slot} {tag n : Nat} {s t : State} :
    execIeGet e tag n s = .next t ↔ s.cfg.wf = true ∧ (s.slot e).dataLength ≤ s.cfg.cap ∧ s.cfg.tagFits tag = true ∧
      { s with resp := some (getResponse s.cfg (s.slot e).payload tag n) } = t := by
  have hk : execIeGet e tag n s = requireAll [s.configOk, s.slotOk e, s.tagOk tag]
      (orFault (s.payload e) fun p => s.answer (getResponse s.cfg p tag n)) := by
    unfold execIeGet getResponse
    congr 2
    funext p
    cases ieFind s.cfg p tag n (ieFuel s.cfg p) 0 <;> rfl
  rw [hk, requireAll_next]
  simp only [State.configOk, State.slotOk, State.tagOk, Envelope.fits, List.mem_cons,
    List.not_mem_nil, or_false, forall_eq_or_imp, forall_eq, decide_eq_true_eq, and_assoc]
  refine and_congr_right fun _ => and_congr_right fun h2 => and_congr_right fun _ => ?_
  simp [payload_ok h2]

/-! ### Operations on the slot the list is rooted at -/

theorem execEnvSetLen_next {s t : State} :
    execEnvSetLen s = .next t ↔ s.cfg.wf = true ∧ (s.iel.size ≤ s.iel.cap ∧ s.iel.cap ≤ s.cfg.cap) ∧
      (s.slot s.iel.slot).dataLength ≤ s.cfg.cap ∧
      { s.withSlot s.iel.slot { s.slot s.iel.slot with dataLength := s.iel.size } with resp := some { ok := true } } = t := by
  simp [execEnvSetLen, requireAll_next, State.configOk, State.listOk, Iel.fits, State.slotOk, Envelope.fits, and_assoc]

/-- The preconditions of `IE.ADD` (R40, R28, R117, R154, R151). -/
structure AddReady (s : State) (tag : Nat) (ibuf : List Byte) (n : Nat) : Prop where
  config : s.cfg.wf = true
  size : s.iel.size ≤ s.iel.cap
  cap : s.iel.cap ≤ s.cfg.cap
  slot : (s.slot s.iel.slot).dataLength ≤ s.cfg.cap
  tag : s.cfg.tagFits tag = true
  length : s.cfg.lengthFits n = true
  operand : n ≤ ibuf.length

/-- The state after a successful `IE.ADD` (R152). -/
def State.appended (s : State) (tag : Nat) (value : List Byte) : State :=
  { s.withSlot s.iel.slot { s.slot s.iel.slot with
      data := (s.slot s.iel.slot).data.setRange s.iel.size (tlvBytes s.cfg tag value) } with
    iel := { s.iel with size := s.iel.size + ovh s.cfg + value.length }, resp := some { ok := true } }

theorem appendEntry_eq {s : State} {tag : Nat} {value : List Byte}
    (h : s.iel.size + ovh s.cfg + value.length ≤ s.cfg.cap) : appendEntry tag value s = .next (s.appended tag value) := by
  rw [appendEntry, writeBytes_ok (by simp; omega), State.withMemory_dataSpace]
  simp [State.appended]

theorem execIeAdd_next {tag n : Nat} {ibuf : List Byte} {s t : State} :
    execIeAdd tag ibuf n s = .next t ↔ AddReady s tag ibuf n ∧
      (if s.iel.cap < s.iel.size + ovh s.cfg + n then { s with resp := some { ok := false, cause := some .ieCapacity } }
        else s.appended tag (ibuf.take n)) = t := by
  simp only [execIeAdd, requireAll_next, State.configOk, State.listOk, State.slotOk, State.tagOk, Iel.fits, Envelope.fits,
    List.mem_cons, List.not_mem_nil, or_false, forall_eq_or_imp, forall_eq, decide_eq_true_eq, Bool.and_eq_true, gt_iff_lt]
  have hk : s.iel.cap ≤ s.cfg.cap → n ≤ ibuf.length →
      ((if s.iel.cap < s.iel.size + ovh s.cfg + n then s.reject .ieCapacity else appendEntry tag (ibuf.take n) s) = .next t ↔
      (if s.iel.cap < s.iel.size + ovh s.cfg + n then { s with resp := some { ok := false, cause := some .ieCapacity } }
        else s.appended tag (ibuf.take n)) = t) := by
    intro h1 h2
    split
    · simp
    · rw [appendEntry_eq (by simp; omega)]; simp
  constructor
  · rintro ⟨⟨h1, ⟨h2, h3⟩, h4, h5, h6, h7⟩, h8⟩
    exact ⟨⟨h1, h2, h3, h4, h5, h6, h7⟩, (hk h3 h7).1 h8⟩
  · rintro ⟨⟨h1, h2, h3, h4, h5, h6, h7⟩, h8⟩
    exact ⟨⟨h1, ⟨h2, h3⟩, h4, h5, h6, h7⟩, (hk h3 h7).2 h8⟩

section appended
variable (s : State) (tag : Nat) (value : List Byte)

@[simp] theorem State.appended_cfg : (s.appended tag value).cfg = s.cfg := by simp [State.appended]
@[simp] theorem State.appended_ctx : (s.appended tag value).ctx = s.ctx := by simp [State.appended]
@[simp] theorem State.appended_port : (s.appended tag value).port = s.port := by simp [State.appended]
@[simp] theorem State.appended_resp : (s.appended tag value).resp = some { ok := true } := rfl
@[simp] theorem State.appended_iel :
    (s.appended tag value).iel = { s.iel with size := s.iel.size + ovh s.cfg + value.length } := rfl
@[simp] theorem State.slot_appended : (s.appended tag value).slot s.iel.slot =
    { s.slot s.iel.slot with data := (s.slot s.iel.slot).data.setRange s.iel.size (tlvBytes s.cfg tag value) } := by
  simp [State.appended]
theorem State.slot_appended_ne {d : Slot} (hd : d ≠ s.iel.slot) : (s.appended tag value).slot d = s.slot d := by
  simp [State.appended, State.slot_withSlot_ne _ _ _ hd]
@[simp] theorem State.draws_appended (d : Slot) : (s.appended tag value).draws d = s.draws d := by
  cases d <;> simp [State.appended, State.draws]

end appended

/-! ### PARSE -/

/-- The state after `PARSE` of a packet whose operand conditions hold (R221 to R227). -/
def State.parsed (s : State) (e : Slot) (packet : List Byte) : State :=
  if packet.length < hdrLen then { s with resp := some { ok := false, cause := some .undersize } }
  else if packet.length - hdrLen > s.cfg.cap then { s with resp := some { ok := false, cause := some .lenOverflow } }
  else if s.cfg.parseVerify = true ∧
      frameCsum s.cfg (headerOf packet) (packet.drop hdrLen) ≠ (headerOf packet).checksum then
    { s with resp := some { ok := false, cause := some .csumMismatch } }
  else { s.delivered e (headerOf packet) (packet.drop hdrLen) with resp := some { ok := true } }

theorem execParse_next {e : Slot} {ibuf : List Byte} {n : Nat} {s t : State} :
    execParse e ibuf n s = .next t ↔ s.cfg.wf = true ∧ (s.slot e).dataLength ≤ s.cfg.cap ∧ n ≤ ibuf.length ∧
      s.parsed e (ibuf.take n) = t := by
  simp only [execParse, requireAll_next, State.configOk, State.slotOk, Envelope.fits, List.mem_cons, List.not_mem_nil,
    or_false, forall_eq_or_imp, forall_eq, decide_eq_true_eq, and_assoc]
  refine and_congr_right fun _ => and_congr_right fun _ => and_congr_right fun hn => ?_
  have hl : (ibuf.take n).length = n := by simp [hn]
  rw [State.parsed, hl]
  by_cases h1 : n < hdrLen
  · simp [h1]
  · by_cases h2 : n - hdrLen > s.cfg.cap
    · simp [h1, h2]
    · rw [if_neg h1, if_neg h2, if_neg h1, if_neg h2, parseFrame]
      by_cases h : s.cfg.parseVerify = true ∧
          checksumOf s.cfg (headerOf (ibuf.take n)) ((ibuf.take n).drop hdrLen) ≠ (headerOf (ibuf.take n)).checksum
      · have h' := h
        rw [checksumOf_eq] at h'
        dsimp only
        rw [if_pos h, if_pos h']; simp
      · have h' := h
        rw [checksumOf_eq] at h'
        dsimp only
        rw [if_neg h, if_neg h', deliver_ok (by simp only [List.length_drop, hl]; omega)]; simp

/-- Everything a `PARSE` can do, and that only the configuration and the packet decide which (R221 to R227). -/
theorem parsed_cases (c : Config) (packet : List Byte) :
    (∃ cause ∈ [Cause.undersize, Cause.lenOverflow, Cause.csumMismatch], ∀ (s : State) (e : Slot), s.cfg = c →
      s.parsed e packet = { s with resp := some { ok := false, cause := some cause } }) ∨
    (hdrLen ≤ packet.length ∧ packet.length - hdrLen ≤ c.cap ∧
      (c.parseVerify = true → frameCsum c (headerOf packet) (packet.drop hdrLen) = (headerOf packet).checksum) ∧
      ∀ (s : State) (e : Slot), s.cfg = c →
        s.parsed e packet = { s.delivered e (headerOf packet) (packet.drop hdrLen) with resp := some { ok := true } }) := by
  by_cases h1 : packet.length < hdrLen
  · exact .inl ⟨.undersize, by simp, fun s e _ => if_pos h1⟩
  · by_cases h2 : packet.length - hdrLen > c.cap
    · exact .inl ⟨.lenOverflow, by simp, fun s e hc => by rw [State.parsed, if_neg h1, hc, if_pos h2]⟩
    · by_cases h3 : c.parseVerify = true ∧
          frameCsum c (headerOf packet) (packet.drop hdrLen) ≠ (headerOf packet).checksum
      · exact .inl ⟨.csumMismatch, by simp, fun s e hc => by rw [State.parsed, if_neg h1, hc, if_neg h2, if_pos h3]⟩
      · refine .inr ⟨by omega, by omega, fun hv => ?_, fun s e hc => by rw [State.parsed, if_neg h1, hc, if_neg h2, if_neg h3]⟩
        by_contra hne
        exact h3 ⟨hv, hne⟩

/-! ### FEED -/

/-- `CTX.count` moves on. -/
theorem feedHeader_mid {s : State} {b : Byte} (h : s.ctx.count + 1 < shdr s.cfg) :
    feedHeader b s = .next { s with
      ctx := { s.ctx with hdr := headerWith s b, count := s.ctx.count + 1 }, resp := some { ok := false } } := by
  rw [feedHeader, writeBytes_ok (by simp; omega)]
  simp [countByte, h, headerWith, Memory.setRange]

theorem feedHeader_last {s : State} {b : Byte} (h : s.ctx.count + 1 = shdr s.cfg) :
    feedHeader b s = feedHeaderDone { s with ctx := { s.ctx with hdr := headerWith s b, count := s.ctx.count + 1 } } := by
  rw [feedHeader, writeBytes_ok (by simp; omega)]
  simp [countByte, h, headerWith, Memory.setRange]

theorem feedHeaderDone_eq (s : State) :
    feedHeaderDone s = if lengthValue s.cfg s.ctx.hdr < s.cfg.lenfBias then s.rejectFeed .undersize
      else feedDeclared (lengthValue s.cfg s.ctx.hdr - s.cfg.lenfBias) s := by
  rw [feedHeaderDone, readBytes_ok (by simp [shdr])]
  rfl

/-- Completion, in one equation (R199, R200). -/
theorem feedComplete_eq {s : State} (h : s.ctx.declLen ≤ s.cfg.cap) :
    feedComplete s =
      if frameCsum s.cfg (headerFields s.cfg s.ctx.hdr) (s.ctx.payload.getRange 0 s.ctx.declLen) ≠
          (headerFields s.cfg s.ctx.hdr).checksum then
        .next { s with ctx := .zero, resp := some { ok := false, cause := some .csumMismatch } }
      else .next { s.delivered .rxe (headerFields s.cfg s.ctx.hdr) (s.ctx.payload.getRange 0 s.ctx.declLen) with
        ctx := .zero, resp := some { ok := true } } := by
  rw [feedComplete, readBytes_ok (by simp [shdr]), orFault_ok, readBytes_ok (by simpa using h), orFault_ok,
    deliver_ok (by simpa using h)]
  rfl

theorem feedPayload_mid {s : State} {b : Byte} (hd : s.ctx.declLen ≤ s.cfg.cap) (hs : shdr s.cfg ≤ s.ctx.count)
    (h : s.ctx.count + 1 < shdr s.cfg + s.ctx.declLen) :
    feedPayload b s = .next { s with
      ctx := { s.ctx with payload := s.ctx.payload.set (s.ctx.count - shdr s.cfg) b, count := s.ctx.count + 1 }
      resp := some { ok := false } } := by
  rw [feedPayload, writeBytes_ok (by simp; omega)]
  simp [countByte, h, Memory.setRange]

theorem feedPayload_last {s : State} {b : Byte} (hd : s.ctx.declLen ≤ s.cfg.cap) (hs : shdr s.cfg ≤ s.ctx.count)
    (h : s.ctx.count + 1 = shdr s.cfg + s.ctx.declLen) :
    feedPayload b s = feedComplete { s with
      ctx := { s.ctx with payload := s.ctx.payload.set (s.ctx.count - shdr s.cfg) b, count := s.ctx.count + 1 } } := by
  rw [feedPayload, writeBytes_ok (by simp; omega)]
  simp [countByte, h, Memory.setRange]

/-- What `FEED` asks beside a consistent context (R11, R28). -/
def State.feedReady (s : State) : Prop := s.cfg.wf = true ∧ s.rxe.dataLength ≤ s.cfg.cap

theorem execFeed_header {s : State} (b : Byte) (hw : s.feedReady) (hp : s.ctx.phase = .awaitingHeader)
    (hc : s.ctx.count < shdr s.cfg) : execFeed b s = feedHeader b s := by
  simp [execFeed, requireAll_cons, State.configOk, State.contextOk, State.slotOk, State.slot, Envelope.fits, Ctx.consistent, hw.1, hw.2, hp, hc]

theorem execFeed_payload {s : State} (b : Byte) (hw : s.feedReady) (hp : s.ctx.phase = .awaitingPayload)
    (hd : 1 ≤ s.ctx.declLen) (hd' : s.ctx.declLen ≤ s.cfg.cap)
    (hc : shdr s.cfg ≤ s.ctx.count) (hc' : s.ctx.count < shdr s.cfg + s.ctx.declLen) :
    execFeed b s = feedPayload b s := by
  simp [execFeed, requireAll_cons, State.configOk, State.contextOk, State.slotOk, State.slot, Envelope.fits, Ctx.consistent,
    hw.1, hw.2, hp, hd, hd', hc, hc']

/-- What a consistent context is, phase by phase (R37). -/
theorem consistent_iff {c : Config} {x : Ctx} :
    x.consistent c = true ↔ (x.phase = .awaitingHeader ∧ x.count < shdr c) ∨
      (x.phase = .awaitingPayload ∧ 1 ≤ x.declLen ∧ x.declLen ≤ c.cap ∧ shdr c ≤ x.count ∧ x.count < shdr c + x.declLen) := by
  cases h : x.phase <;> simp [Ctx.consistent, h, and_assoc]

/-- Everything a `FEED` can do (R193): the nine rows of its table, those with one effect taken together. -/
inductive FeedEffect (s : State) (b : Byte) : State → Prop where
  | headerByte (hp : s.ctx.phase = .awaitingHeader) (hc : s.ctx.count + 1 < shdr s.cfg) :
      FeedEffect s b { s with
        ctx := { s.ctx with hdr := headerWith s b, count := s.ctx.count + 1 }, resp := some { ok := false } }
  | rejected (c : Cause) (hc : c ∈ [Cause.undersize, Cause.lenOverflow, Cause.csumMismatch]) :
      FeedEffect s b { s with ctx := .zero, resp := some { ok := false, cause := some c } }
  | declared (hp : s.ctx.phase = .awaitingHeader) (hc : s.ctx.count + 1 = shdr s.cfg)
      (hl : s.cfg.lenfBias < lengthValue s.cfg (headerWith s b))
      (hu : lengthValue s.cfg (headerWith s b) ≤ s.cfg.lenfBias + s.cfg.cap) :
      FeedEffect s b { s with
        ctx := {
          count := s.ctx.count + 1, phase := .awaitingPayload, hdr := headerWith s b,
          declLen := lengthValue s.cfg (headerWith s b) - s.cfg.lenfBias, payload := s.ctx.payload }
        resp := some { ok := false } }
  | payloadByte (hp : s.ctx.phase = .awaitingPayload) (hd : s.ctx.declLen ≤ s.cfg.cap) (hs : shdr s.cfg ≤ s.ctx.count)
      (hc : s.ctx.count + 1 < shdr s.cfg + s.ctx.declLen) :
      FeedEffect s b { s with
        ctx := { s.ctx with payload := s.ctx.payload.set (s.ctx.count - shdr s.cfg) b, count := s.ctx.count + 1 }
        resp := some { ok := false } }
  | delivered (hdr : Memory) (payload : List Byte) (he : FrameEnds s b hdr payload) (hl : payload.length ≤ s.cfg.cap)
      (hg : frameCsum s.cfg (headerFields s.cfg hdr) payload = (headerFields s.cfg hdr).checksum) :
      FeedEffect s b { s.delivered .rxe (headerFields s.cfg hdr) payload with ctx := .zero, resp := some { ok := true } }

/-- The last byte of a frame, in one equation (R198 to R201). -/
theorem execFeed_ends {s : State} {b : Byte} {hdr : Memory} {payload : List Byte} (hw : s.feedReady)
    (hc : s.ctx.consistent s.cfg = true) (he : FrameEnds s b hdr payload) :
    execFeed b s =
      if frameCsum s.cfg (headerFields s.cfg hdr) payload ≠ (headerFields s.cfg hdr).checksum then
        .next { s with ctx := .zero, resp := some { ok := false, cause := some .csumMismatch } }
      else .next { s.delivered .rxe (headerFields s.cfg hdr) payload with ctx := .zero, resp := some { ok := true } } := by
  rcases he with ⟨hp, hcnt, rfl, hlv, rfl⟩ | ⟨hp, hcnt, rfl, rfl⟩
  · rw [execFeed_header b hw hp (by omega), feedHeader_last hcnt, feedHeaderDone_eq]
    rw [if_neg (by dsimp only; omega), feedDeclared, if_neg (by dsimp only; omega), if_neg (by dsimp only; omega),
      feedComplete_eq (by dsimp only; omega)]
    simp only [show lengthValue s.cfg (headerWith s b) - s.cfg.lenfBias = 0 by omega]
    rfl
  · rcases consistent_iff.1 hc with ⟨hp', _⟩ | ⟨_, h1, h2, h3, h4⟩
    · simp [hp] at hp'
    · rw [execFeed_payload b hw hp h1 h2 h3 h4, feedPayload_last h2 h3 hcnt, feedComplete_eq (by exact h2)]
      rfl

/-- The last header byte, when no frame ends there (R197, R198). -/
theorem execFeed_headerDone {s : State} {b : Byte} (hw : s.feedReady) (hp : s.ctx.phase = .awaitingHeader)
    (hc : s.ctx.count + 1 = shdr s.cfg) :
    (lengthValue s.cfg (headerWith s b) < s.cfg.lenfBias →
      execFeed b s = .next { s with ctx := .zero, resp := some { ok := false, cause := some .undersize } }) ∧
    (s.cfg.lenfBias + s.cfg.cap < lengthValue s.cfg (headerWith s b) →
      execFeed b s = .next { s with ctx := .zero, resp := some { ok := false, cause := some .lenOverflow } }) ∧
    (s.cfg.lenfBias < lengthValue s.cfg (headerWith s b) →
      lengthValue s.cfg (headerWith s b) ≤ s.cfg.lenfBias + s.cfg.cap →
      execFeed b s = .next { s with
        ctx := {
          count := s.ctx.count + 1, phase := .awaitingPayload, hdr := headerWith s b,
          declLen := lengthValue s.cfg (headerWith s b) - s.cfg.lenfBias, payload := s.ctx.payload }
        resp := some { ok := false } }) := by
  rw [execFeed_header b hw hp (by omega), feedHeader_last hc, feedHeaderDone_eq]
  refine ⟨fun h => ?_, fun h => ?_, fun h h' => ?_⟩
  · simp [h]
  · rw [if_neg (by dsimp only; omega), feedDeclared, if_pos (by dsimp only; omega)]; rfl
  · rw [if_neg (by dsimp only; omega), feedDeclared, if_neg (by dsimp only; omega)]
    dsimp only
    rw [if_pos (by omega)]
    rfl

/-- `FEED` completes from every consistent context, with one of the effects of its table (R193). -/
theorem execFeed_total {s : State} (b : Byte) (hw : s.feedReady) (hc : s.ctx.consistent s.cfg = true) :
    ∃ t, execFeed b s = .next t ∧ FeedEffect s b t := by
  have ends : ∀ {hdr payload}, FrameEnds s b hdr payload → payload.length ≤ s.cfg.cap →
      ∃ t, execFeed b s = .next t ∧ FeedEffect s b t := by
    intro hdr payload he hl
    rw [execFeed_ends hw hc he]
    split
    · exact ⟨_, rfl, .rejected .csumMismatch (by simp)⟩
    · rename_i hg
      exact ⟨_, rfl, .delivered hdr payload he hl (not_not.1 hg)⟩
  rcases consistent_iff.1 hc with ⟨hp, hcnt⟩ | ⟨hp, h1, h2, h3, h4⟩
  · rcases Nat.lt_or_eq_of_le (Nat.succ_le_of_lt hcnt) with hlt | heq
    · exact ⟨_, (execFeed_header b hw hp hcnt).trans (feedHeader_mid hlt), .headerByte hp hlt⟩
    · obtain ⟨hu, ho, hd⟩ := execFeed_headerDone (b := b) hw hp heq
      rcases Nat.lt_trichotomy (lengthValue s.cfg (headerWith s b)) s.cfg.lenfBias with hlt | heq' | hgt
      · exact ⟨_, hu hlt, .rejected .undersize (by simp)⟩
      · exact ends (.inl ⟨hp, heq, rfl, heq', rfl⟩) (by simp)
      · by_cases hcap : lengthValue s.cfg (headerWith s b) ≤ s.cfg.lenfBias + s.cfg.cap
        · exact ⟨_, hd hgt hcap, .declared hp heq hgt hcap⟩
        · exact ⟨_, ho (by omega), .rejected .lenOverflow (by simp)⟩
  · rcases Nat.lt_or_eq_of_le (Nat.succ_le_of_lt h4) with hlt | heq
    · exact ⟨_, (execFeed_payload b hw hp h1 h2 h3 h4).trans (feedPayload_mid h2 h3 hlt), .payloadByte hp h2 h3 hlt⟩
    · exact ends (.inr ⟨hp, heq, rfl, rfl⟩) (by simpa using h2)

theorem execFeed_next {s t : State} {b : Byte} (h : execFeed b s = .next t) :
    s.feedReady ∧ s.ctx.consistent s.cfg = true ∧ FeedEffect s b t := by
  have h0 := h
  simp only [execFeed, requireAll_next, State.configOk, State.contextOk, State.slotOk, Envelope.fits, decide_eq_true_eq,
    List.mem_cons, List.not_mem_nil, or_false, forall_eq_or_imp, forall_eq] at h0
  obtain ⟨⟨hw1, hc, hw2⟩, -⟩ := h0
  have hw : s.feedReady := ⟨hw1, hw2⟩
  obtain ⟨t', ht', he⟩ := execFeed_total b hw hc
  rw [h] at ht'
  cases ht'
  exact ⟨hw, hc, he⟩

end Sys2Proof.Machine
end

