-- ==== Sys2Proof/Laws/Invariant.lean ====
section
/-! SUPPORT. The block's invariant under each shared update, and the locality of `FEED`. -/

namespace Sys2Proof.Machine

theorem State.inv_slot {s : State} (h : s.Inv) (e : Slot) :
    (s.slot e).dataLength ≤ s.cfg.cap ∧ (s.slot e).data.sound s.cfg.cap := by
  cases e
  · exact ⟨h.rxe, h.rxeData⟩
  · exact ⟨h.txe, h.txeData⟩

/-- The invariant, slot by slot. -/
theorem State.inv_iff {s : State} : s.Inv ↔ s.cfg.wf = true ∧
    (∀ e, (s.slot e).dataLength ≤ s.cfg.cap ∧ (s.slot e).data.sound s.cfg.cap) ∧
    (s.iel.size ≤ s.iel.cap ∧ s.iel.cap ≤ s.cfg.cap) ∧ s.ctx.consistent s.cfg = true ∧
    s.ctx.hdr.sound (shdr s.cfg) ∧ s.ctx.payload.sound s.cfg.cap ∧ s.ctx.declLen ≤ s.cfg.cap := by
  constructor
  · intro h; exact ⟨h.config, fun e => State.inv_slot h e, h.list, h.context, h.hdr, h.payload, h.declared⟩
  · rintro ⟨a, b, c, d, e, f⟩
    exact ⟨a, (b .rxe).1, (b .txe).1, c, d, (b .rxe).2, (b .txe).2, e, f.1, f.2⟩

theorem State.inv_withSlot {s : State} (h : s.Inv) (e : Slot) (v : Envelope) (h1 : v.dataLength ≤ s.cfg.cap)
    (h2 : v.data.sound s.cfg.cap) : (s.withSlot e v).Inv := by
  obtain ⟨a, b, c, d, f, g⟩ := State.inv_iff.1 h
  refine State.inv_iff.2 ⟨by simpa, fun d => ?_, by simpa, by simpa, by simpa, by simpa⟩
  by_cases hd : d = e
  · subst hd; simpa using ⟨h1, h2⟩
  · rw [State.slot_withSlot_ne _ _ _ hd]; simpa using b d

theorem State.inv_resp {s : State} (h : s.Inv) (r : Option Response) : State.Inv { s with resp := r } :=
  ⟨h.1, h.2, h.3, h.4, h.5, h.6, h.7, h.8, h.9, h.10⟩

theorem State.inv_port {s : State} (h : s.Inv) (p : List Transaction) : State.Inv { s with port := p } :=
  ⟨h.1, h.2, h.3, h.4, h.5, h.6, h.7, h.8, h.9, h.10⟩

theorem State.inv_bumpDraws {s : State} (h : s.Inv) (e : Slot) : (s.bumpDraws e).Inv := by
  cases e <;> exact ⟨h.1, h.2, h.3, h.4, h.5, h.6, h.7, h.8, h.9, h.10⟩

theorem State.inv_iel {s : State} (h : s.Inv) {l : Iel} (hl : l.size ≤ l.cap ∧ l.cap ≤ s.cfg.cap) :
    State.Inv { s with iel := l } :=
  ⟨h.1, h.2, h.3, hl, h.5, h.6, h.7, h.8, h.9, h.10⟩

theorem consistent_zero {c : Config} (h : c.wf = true) : Ctx.consistent c .zero = true := by
  have := shdr_pos h
  show decide (0 < shdr c) = true
  simp; omega

theorem State.inv_ctxZero {s : State} (h : s.Inv) : State.Inv { s with ctx := .zero } :=
  ⟨h.1, h.2, h.3, h.4, consistent_zero h.config, h.6, h.7, Memory.sound_zero _, Memory.sound_zero _, Nat.zero_le _⟩

theorem State.inv_delivered {s : State} (h : s.Inv) (e : Slot) (hd : Header) {p : List Byte} (hl : p.length ≤ s.cfg.cap) :
    (s.delivered e hd p).Inv :=
  State.inv_bumpDraws (State.inv_withSlot h e _ hl (deliveredEnvelope_sound _ _ _ hl)) e

theorem State.inv_appended {s : State} (h : s.Inv) {tag : Nat} {v : List Byte}
    (hl : s.iel.size + ovh s.cfg + v.length ≤ s.iel.cap) : (s.appended tag v).Inv := by
  have hi := h.list
  obtain ⟨a, b, c, d, f, g⟩ := State.inv_iff.1 h
  refine State.inv_iff.2 ⟨by simpa, fun d => ?_, by simp; omega, by simpa, by simpa, by simpa⟩
  by_cases hd : d = s.iel.slot
  · subst hd
    simp only [State.slot_appended, State.appended_cfg]
    exact ⟨(b _).1, Memory.sound_setRange _ (b _).2 (by simp; omega)⟩
  · rw [State.slot_appended_ne _ _ _ hd]; simpa using b d

/-! ### What a `FEED` reads -/

/-- The parts of a state that the receive group's operations write (R63), taken from another state. -/
def receivePart (s s1 : State) : State := { s with ctx := s1.ctx, rxe := s1.rxe, rxDraws := s1.rxDraws, resp := s1.resp }

/-- `FEED` depends on the context, `RXE` and the configuration only (R69). -/
theorem execFeed_local {s s1 : State} {b : Byte} (h : execFeed b s = .next s1) (s' : State)
    (hc : s'.cfg = s.cfg) (hx : s'.ctx = s.ctx) (hr : s'.rxe = s.rxe) (hd : s'.rxDraws = s.rxDraws) :
    execFeed b s' = .next (receivePart s' s1) := by
  obtain ⟨hw, hcon, -⟩ := execFeed_next h
  have hw' : s'.feedReady := by rw [State.feedReady, hc, hr]; exact hw
  have hh : headerWith s' b = headerWith s b := by simp [headerWith, hx]
  have ends : ∀ {hdr payload}, FrameEnds s b hdr payload →
      execFeed b s' = .next (receivePart s' s1) := by
    intro hdr payload he
    have he' : FrameEnds s' b hdr payload := by simpa [FrameEnds, hc, hx, hh] using he
    rw [execFeed_ends hw hcon he] at h
    rw [execFeed_ends hw' (by rw [hc, hx]; exact hcon) he', hc]
    by_cases hq : frameCsum s.cfg (headerFields s.cfg hdr) payload ≠ (headerFields s.cfg hdr).checksum
    · rw [if_pos hq] at h ⊢; cases h; simp [receivePart, hr, hd, hc]
    · rw [if_neg hq] at h ⊢; cases h; simp [receivePart, hd, hc, State.delivered, State.withSlot, State.bumpDraws, State.draws]
  rcases consistent_iff.1 hcon with ⟨hp, hcnt⟩ | ⟨hp, h1, h2, h3, h4⟩
  · rcases Nat.lt_or_eq_of_le (Nat.succ_le_of_lt hcnt) with hlt | heq
    · rw [execFeed_header b hw hp hcnt, feedHeader_mid hlt] at h
      rw [execFeed_header b hw' (by rwa [hx]) (by rwa [hx, hc]), feedHeader_mid (by rwa [hx, hc])]
      cases h; simp [receivePart, hr, hd, hx, hh]
    · obtain ⟨hu, ho, hd1⟩ := execFeed_headerDone (b := b) hw hp heq
      obtain ⟨hu', ho', hd1'⟩ := execFeed_headerDone (s := s') (b := b) hw' (by rwa [hx]) (by rwa [hx, hc])
      rw [hc, hh] at hu' ho' hd1'
      rcases Nat.lt_trichotomy (lengthValue s.cfg (headerWith s b)) s.cfg.lenfBias with hlt | heq' | hgt
      · rw [hu hlt] at h; rw [hu' hlt]; cases h; simp [receivePart, hr, hd, hc]
      · exact ends (.inl ⟨hp, heq, rfl, heq', rfl⟩)
      · by_cases hcap : lengthValue s.cfg (headerWith s b) ≤ s.cfg.lenfBias + s.cfg.cap
        · rw [hd1 hgt hcap] at h; rw [hd1' hgt hcap]; cases h; simp [receivePart, hr, hd, hx, hc]
        · rw [ho (by omega)] at h; rw [ho' (by omega)]; cases h; simp [receivePart, hr, hd, hc]
  · rcases Nat.lt_or_eq_of_le (Nat.succ_le_of_lt h4) with hlt | heq
    · rw [execFeed_payload b hw hp h1 h2 h3 h4, feedPayload_mid h2 h3 hlt] at h
      rw [execFeed_payload b hw' (by rwa [hx]) (by rwa [hx]) (by rwa [hx, hc]) (by rwa [hx, hc]) (by rwa [hx, hc]),
        feedPayload_mid (by rwa [hx, hc]) (by rwa [hx, hc]) (by rwa [hx, hc])]
      cases h; simp [receivePart, hr, hd, hx, hc]
    · exact ends (.inr ⟨hp, heq, rfl, rfl⟩)

end Sys2Proof.Machine
end

