-- ==== Sys2Proof/Laws/PerInstr.lean ====
section
/-! SUPPORT. Statements about every operation as syntax, one lemma per constructor. -/

namespace Sys2Proof.Laws.OneCode

/-- R118: an operation has one code. Whatever transaction decodes to it presents the code that the encoder presents. -/
def Statement (i : Instr) : Prop := ∀ t : Transaction, decode t = .ok i → t.op = (encode i).op

theorem every (i : Instr) : Statement i := by
  intro t h
  apply BitVec.eq_of_toNat_eq
  unfold decode at h
  split at h
  case h_5 x hx =>
    split at h
    · cases h; simpa [encode] using hx
    · cases h
  case h_18 => cases h
  all_goals (rename_i hx; cases h; simpa [encode] using hx)

theorem ctxInit : Statement .ctxInit := every _
theorem feed (b : Byte) : Statement (.feed b) := every _
theorem parse (e : Slot) (ibuf : List Byte) (n : Nat) : Statement (.parse e ibuf n) := every _
theorem envClr (e : Slot) : Statement (.envClr e) := every _
theorem envSet (e : Slot) (f : HeaderField) (v : Half) : Statement (.envSet e f v) := every _
theorem envSetLen : Statement .envSetLen := every _
theorem ieNew (e : Slot) (n : Nat) : Statement (.ieNew e n) := every _
theorem ieAdd (tag : Nat) (ibuf : List Byte) (n : Nat) : Statement (.ieAdd tag ibuf n) := every _
theorem ieSize : Statement .ieSize := every _
theorem ieGet (e : Slot) (tag n : Nat) : Statement (.ieGet e tag n) := every _
theorem h2n16 (v : Half) : Statement (.h2n16 v) := every _
theorem n2h16 (v : Half) : Statement (.n2h16 v) := every _
theorem cksCalc (e : Slot) : Statement (.cksCalc e) := every _
theorem cksVfy (e : Slot) : Statement (.cksVfy e) := every _
theorem cksSeal (e : Slot) : Statement (.cksSeal e) := every _
theorem ser (e : Slot) : Statement (.ser e) := every _
theorem sers (e : Slot) : Statement (.sers e) := every _

end Sys2Proof.Laws.OneCode
end

