-- ==== Sys2Proof/Laws/Runs.lean ====
section
/-! SUPPORT. Runs of operations: how they join, and what a run of `FEED`s over one stream frame leaves. -/

namespace Sys2Proof.Machine

/-! ### Joining runs -/

@[simp] theorem runAll_nil (s : State) : runAll [] s = .next ([], s) := rfl

/-- The result bit that a state's output lines show. -/
def State.okLine (s : State) : Bool := (s.resp.map Response.ok).getD false

theorem runAll_cons {i : Instr} {rest : List Instr} {s s1 t : State} {oks : List Bool} (h1 : exec i s = .next s1)
    (h2 : runAll rest s1 = .next (oks, t)) : runAll (i :: rest) s = .next (s1.okLine :: oks, t) := by
  simp only [runAll, h1, h2, State.okLine]

/-- A run that ends is its first operation and a run of the others. -/
theorem runAll_cons_next {i : Instr} {rest : List Instr} {s t : State} {oks : List Bool}
    (h : runAll (i :: rest) s = .next (oks, t)) :
    ∃ s1 oks', exec i s = .next s1 ∧ runAll rest s1 = .next (oks', t) ∧ oks = s1.okLine :: oks' := by
  rw [runAll] at h
  split at h
  · rename_i s1 h1
    split at h
    · rename_i oks' t' h2
      cases h
      exact ⟨s1, oks', h1, h2, rfl⟩
    · cases h
    · cases h
  · cases h
  · cases h

theorem runAll_append {a b : List Instr} {s u t : State} {o1 o2 : List Bool} (h1 : runAll a s = .next (o1, u))
    (h2 : runAll b u = .next (o2, t)) : runAll (a ++ b) s = .next (o1 ++ o2, t) := by
  induction a generalizing s o1 with
  | nil => cases h1; exact h2
  | cons i a ih =>
    obtain ⟨s1, oks', e1, e2, rfl⟩ := runAll_cons_next h1
    exact runAll_cons e1 (ih e2)

theorem runAll_append_next {a b : List Instr} {s t : State} {oks : List Bool} (h : runAll (a ++ b) s = .next (oks, t)) :
    ∃ u o1 o2, runAll a s = .next (o1, u) ∧ runAll b u = .next (o2, t) ∧ oks = o1 ++ o2 := by
  induction a generalizing s oks with
  | nil => exact ⟨s, [], oks, rfl, h, rfl⟩
  | cons i a ih =>
    obtain ⟨s1, oks', e1, e2, rfl⟩ := runAll_cons_next h
    obtain ⟨u, o1, o2, f1, f2, rfl⟩ := ih e2
    exact ⟨u, _, o2, runAll_cons e1 f1, f2, rfl⟩

theorem feedAll_append {a b : List Byte} {s u t : State} {o1 o2 : List Bool} (h1 : feedAll a s = .next (o1, u))
    (h2 : feedAll b u = .next (o2, t)) : feedAll (a ++ b) s = .next (o1 ++ o2, t) := by
  rw [feedAll, List.map_append]
  exact runAll_append h1 h2

theorem feedAll_cons {b : Byte} {rest : List Byte} {s s1 t : State} {oks : List Bool} (h1 : execFeed b s = .next s1)
    (h2 : feedAll rest s1 = .next (oks, t)) : feedAll (b :: rest) s = .next (s1.okLine :: oks, t) :=
  runAll_cons h1 h2

/-! ### One stream frame -/

/-- Header bytes short of the header's end (R195). -/
theorem feedAll_header (bytes : List Byte) :
    ∀ s : State, s.feedReady → s.ctx.phase = .awaitingHeader → s.ctx.count + bytes.length < shdr s.cfg →
      ∃ hdr r, feedAll bytes s = .next (List.replicate bytes.length false,
          { s with ctx := { s.ctx with hdr := hdr, count := s.ctx.count + bytes.length }, resp := r }) ∧
        hdr.getRange 0 (s.ctx.count + bytes.length) = s.ctx.hdr.getRange 0 s.ctx.count ++ bytes := by
  induction bytes with
  | nil => intro s _ _ _; exact ⟨s.ctx.hdr, s.resp, by cases s; rfl, by simp⟩
  | cons b bytes ih =>
    intro s hw hp hc
    rw [List.length_cons] at hc
    have h1 := (execFeed_header b hw hp (by omega)).trans (feedHeader_mid (by omega))
    obtain ⟨hdr, r, h2, h3⟩ := ih { s with
      ctx := { s.ctx with hdr := headerWith s b, count := s.ctx.count + 1 }, resp := some { ok := false } } hw hp
      (by dsimp only; omega)
    refine ⟨hdr, r, ?_, ?_⟩
    · rw [feedAll_cons h1 h2]
      simp [State.okLine, List.replicate_succ, Nat.add_comm 1, Nat.add_assoc]
    · rw [show s.ctx.count + (b :: bytes).length = s.ctx.count + 1 + bytes.length by simp; omega, h3]
      dsimp only
      rw [headerWith, Memory.getRange_set_last]
      simp

/-- Payload bytes short of the payload's end (R201). -/
theorem feedAll_payload (bytes : List Byte) :
    ∀ s : State, s.feedReady → s.ctx.phase = .awaitingPayload → s.ctx.declLen ≤ s.cfg.cap → shdr s.cfg ≤ s.ctx.count →
      s.ctx.count + bytes.length < shdr s.cfg + s.ctx.declLen →
      ∃ payload r, feedAll bytes s = .next (List.replicate bytes.length false,
          { s with ctx := { s.ctx with payload := payload, count := s.ctx.count + bytes.length }, resp := r }) ∧
        payload.getRange 0 (s.ctx.count - shdr s.cfg + bytes.length) =
          s.ctx.payload.getRange 0 (s.ctx.count - shdr s.cfg) ++ bytes := by
  induction bytes with
  | nil => intro s _ _ _ _ _; exact ⟨s.ctx.payload, s.resp, by cases s; rfl, by simp⟩
  | cons b bytes ih =>
    intro s hw hp hd hs hc
    rw [List.length_cons] at hc
    have h1 := (execFeed_payload b hw hp (by omega) hd hs (by omega)).trans (feedPayload_mid hd hs (by omega))
    obtain ⟨payload, r, h2, h3⟩ := ih { s with
      ctx := { s.ctx with payload := s.ctx.payload.set (s.ctx.count - shdr s.cfg) b, count := s.ctx.count + 1 }
      resp := some { ok := false } } hw hp hd (by dsimp only; omega) (by dsimp only; omega)
    refine ⟨payload, r, ?_, ?_⟩
    · rw [feedAll_cons h1 h2]
      simp [State.okLine, List.replicate_succ, Nat.add_comm 1, Nat.add_assoc]
    · dsimp only at h3
      rw [show s.ctx.count - shdr s.cfg + (b :: bytes).length = s.ctx.count + 1 - shdr s.cfg + bytes.length by
        simp; omega, h3, show s.ctx.count + 1 - shdr s.cfg = s.ctx.count - shdr s.cfg + 1 by omega,
        Memory.getRange_set_last]
      simp

/-- What the last byte of a frame leaves (R199, R200). -/
def State.framed (s : State) (f : Header × List Byte) : State :=
  if goodFrame s.cfg f = true then
    { s.delivered .rxe f.1 f.2 with ctx := .zero, resp := some { ok := true } }
  else { s with ctx := .zero, resp := some { ok := false, cause := some .csumMismatch } }

@[simp] theorem State.framed_cfg (s : State) (f : Header × List Byte) : (s.framed f).cfg = s.cfg := by
  unfold State.framed; split <;> simp
@[simp] theorem State.framed_ctx (s : State) (f : Header × List Byte) : (s.framed f).ctx = .zero := by
  unfold State.framed; split <;> rfl
@[simp] theorem State.framed_okLine (s : State) (f : Header × List Byte) : (s.framed f).okLine = goodFrame s.cfg f := by
  unfold State.framed
  split
  · rename_i h; rw [h]; rfl
  · rename_i h
    rw [Bool.not_eq_true] at h
    rw [h]; rfl
@[simp] theorem State.framed_iel (s : State) (f : Header × List Byte) : (s.framed f).iel = s.iel := by
  unfold State.framed; split <;> simp
@[simp] theorem State.framed_txe (s : State) (f : Header × List Byte) : (s.framed f).txe = s.txe := by
  unfold State.framed; split <;> simp

theorem State.framed_feedReady {s : State} {f : Header × List Byte} (h : s.feedReady) (hl : f.2.length ≤ s.cfg.cap) :
    (s.framed f).feedReady := by
  refine ⟨by simpa using h.1, ?_⟩
  rw [State.framed_cfg, State.framed]
  split
  · simpa [State.delivered, State.withSlot, State.bumpDraws, deliveredEnvelope] using hl
  · exact h.2

/-- Only these fields count in what a completion leaves. -/
theorem State.framed_congr {s s' : State} {f : Header × List Byte} (x : Ctx) (r : Option Response)
    (h : s' = { s with ctx := x, resp := r }) : s'.framed f = s.framed f := by
  subst h; unfold State.framed; rfl

theorem execFeed_framed {s : State} {b : Byte} {hdr : Memory} {payload : List Byte} (hw : s.feedReady)
    (hc : s.ctx.consistent s.cfg = true) (he : FrameEnds s b hdr payload) :
    execFeed b s = .next (s.framed (headerFields s.cfg hdr, payload)) := by
  rw [execFeed_ends hw hc he, State.framed, goodFrame]
  by_cases h : frameCsum s.cfg (headerFields s.cfg hdr) payload = (headerFields s.cfg hdr).checksum <;> simp [h]

theorem getRange_split {m : Memory} {a b : List Byte} (h : m.getRange 0 (a.length + b.length) = a ++ b) :
    m.getRange 0 a.length = a ∧ m.getRange a.length b.length = b := by
  rw [Memory.getRange_append] at h
  simpa using List.append_inj h (by simp)

/-- One stream frame of legal length from a zero context: `ok = 0` until the last byte, which answers the checksum test
(R193, R197 to R201). -/
theorem feedAll_frame {s : State} (hw : s.feedReady) (hz : s.ctx = .zero) (f : Header × List Byte)
    (hl : f.2.length ≤ s.cfg.cap) :
    feedAll (streamBytes s.cfg f.1 f.2) s =
      .next (List.replicate (shdr s.cfg + f.2.length - 1) false ++ [goodFrame s.cfg f], s.framed f) := by
  obtain ⟨h, p⟩ := f
  dsimp only at hl ⊢
  have h7 := shdr_pos hw.1
  have hlv := beVal_lengthField hw.1 hl
  set lenf := beBytes s.cfg.lenfW (p.length + s.cfg.lenfBias) with hlenf
  have hlen : lenf.length = s.cfg.lenfW := by simp [hlenf]
  -- the stream header, less its last byte
  obtain ⟨front, last, hfl⟩ : ∃ front last, lenf ++ headerBytes h = front ++ [last] :=
    ⟨_, _, (List.dropLast_append_getLast (l := lenf ++ headerBytes h) (by simp [headerBytes])).symm⟩
  have hfront : front.length + 1 = shdr s.cfg := by
    have := congrArg List.length hfl
    simp [hlen] at this
    simp [shdr]; omega
  have hp0 : s.ctx.phase = .awaitingHeader := by rw [hz]; rfl
  have hc0 : s.ctx.count = 0 := by rw [hz]; rfl
  obtain ⟨hdr, r, e1, e2⟩ := feedAll_header front s hw hp0 (by omega)
  rw [hc0, Nat.zero_add] at e1 e2
  set s1 : State := { s with ctx := { s.ctx with hdr := hdr, count := front.length }, resp := r } with hs1
  have hcount : s1.ctx.count + 1 = shdr s1.cfg := hfront
  have hhdr : (headerWith s1 last).getRange 0 (lenf.length + (headerBytes h).length) = lenf ++ headerBytes h := by
    rw [hfl, show lenf.length + (headerBytes h).length = front.length + 1 by
      have := congrArg List.length hfl; simpa using this]
    show (hdr.set front.length last).getRange 0 (front.length + 1) = _
    rw [Memory.getRange_set_last, e2]; simp
  obtain ⟨g1, g2⟩ := getRange_split hhdr
  have hLV : lengthValue s1.cfg (headerWith s1 last) = p.length + s.cfg.lenfBias := by
    show beVal ((headerWith s1 last).getRange 0 s.cfg.lenfW) = _
    rw [← hlen, g1, hlv]
  have hHF : headerFields s1.cfg (headerWith s1 last) = h := by
    show headerOf ((headerWith s1 last).getRange s.cfg.lenfW hdrLen) = h
    rw [← hlen, ← length_headerBytes h, g2, headerOf_headerBytes]
  have hbytes : streamBytes s.cfg h p = front ++ ([last] ++ p) := by
    rw [streamBytes, ← hlenf, frameBytes, ← List.append_assoc, hfl, List.append_assoc]
  have hcons : s1.ctx.consistent s1.cfg = true :=
    consistent_iff.2 (.inl ⟨hp0, by omega⟩)
  rw [hbytes]
  rcases List.eq_nil_or_concat p with rfl | ⟨q, z, hqz⟩
  · have he := execFeed_framed (s := s1) (b := last) hw hcons (.inl ⟨hp0, hcount, rfl, by rw [hLV]; simp [hs1], rfl⟩)
    rw [hHF] at he
    have run := feedAll_append e1 (feedAll_cons (rest := []) he (runAll_nil _))
    have hgood : (s1.framed (h, [])).okLine = goodFrame s.cfg (h, []) := State.framed_okLine s1 _
    rw [hgood, State.framed_congr s1.ctx r hs1] at run
    rw [List.singleton_append, run, ← hfront]
    rfl
  · rw [List.concat_eq_append] at hqz
    subst hqz
    have hq : (q ++ [z]).length = q.length + 1 := by simp
    rw [hq] at hl hLV ⊢
    have hd := (execFeed_headerDone (s := s1) (b := last) hw hp0 hcount).2.2 (by rw [hLV]; show s.cfg.lenfBias < _; omega)
      (by rw [hLV]; show _ ≤ s.cfg.lenfBias + s.cfg.cap; omega)
    rw [hLV] at hd
    set s2 : State := { s1 with
      ctx := {
        count := s1.ctx.count + 1, phase := .awaitingPayload, hdr := headerWith s1 last,
        declLen := q.length + 1 + s.cfg.lenfBias - s1.cfg.lenfBias, payload := s1.ctx.payload }
      resp := some { ok := false } } with hs2
    have hdecl : s2.ctx.declLen = q.length + 1 := by
      show q.length + 1 + s.cfg.lenfBias - s.cfg.lenfBias = _
      omega
    have hcnt2 : s2.ctx.count = shdr s.cfg := hfront
    obtain ⟨pl, r2, p1, p2⟩ := feedAll_payload q s2 hw rfl (by rw [hdecl]; exact hl) (by rw [hcnt2])
      (by rw [hcnt2, hdecl]; show shdr s.cfg + q.length < shdr s.cfg + (q.length + 1); omega)
    set s3 : State := { s2 with ctx := { s2.ctx with payload := pl, count := s2.ctx.count + q.length }, resp := r2 } with hs3
    have hcnt3 : s3.ctx.count = shdr s.cfg + q.length := by show s2.ctx.count + q.length = _; rw [hcnt2]
    have hdec3 : s3.ctx.declLen = q.length + 1 := hdecl
    have he := execFeed_framed (s := s3) (b := z) (hdr := headerWith s1 last) (payload := q ++ [z]) hw
      (consistent_iff.2 (.inr ⟨rfl, by omega, by rw [hdec3]; exact hl,
        by rw [hcnt3]; show shdr s.cfg ≤ shdr s.cfg + q.length; omega,
        by rw [hcnt3, hdec3]; show shdr s.cfg + q.length < shdr s.cfg + (q.length + 1); omega⟩))
      (.inr ⟨rfl, by rw [hcnt3, hdec3]; rfl, rfl, by
        rw [hcnt3, hdec3]
        show q ++ [z] = (pl.set (shdr s.cfg + q.length - shdr s.cfg) z).getRange 0 (q.length + 1)
        have p3 : pl.getRange 0 q.length = q := by
          have e0 : s2.ctx.count - shdr s2.cfg = 0 := by rw [hcnt2]; exact Nat.sub_self _
          rw [e0] at p2
          simpa using p2
        rw [Nat.add_sub_cancel_left, Memory.getRange_set_last, p3]⟩)
    rw [show headerFields s3.cfg (headerWith s1 last) = h from hHF] at he
    have run := feedAll_append e1 (feedAll_cons hd (feedAll_append p1 (feedAll_cons (rest := []) he (runAll_nil _))))
    have hfin : s3.framed (h, q ++ [z]) = s.framed (h, q ++ [z]) :=
      State.framed_congr s3.ctx r2 (by rw [hs3, hs2, hs1])
    rw [hfin] at run
    have hgood : (s.framed (h, q ++ [z])).okLine = goodFrame s.cfg (h, q ++ [z]) := State.framed_okLine s _
    rw [hgood] at run
    have : s2.okLine = false := rfl
    rw [this] at run
    rw [List.singleton_append, run]
    congr 2
    rw [show shdr s.cfg + (q.length + 1) - 1 = front.length + (q.length + 1) by omega, List.replicate_add,
      List.replicate_succ]
    simp

/-- Frames without gaps: one after another (R206). -/
def framedAll (s : State) : List (Header × List Byte) → State
  | [] => s
  | f :: rest => framedAll (s.framed f) rest

theorem feedAll_frames (frames : List (Header × List Byte)) :
    ∀ s : State, s.feedReady → s.ctx = .zero → (∀ f ∈ frames, f.2.length ≤ s.cfg.cap) →
      feedAll (frames.flatMap fun f => streamBytes s.cfg f.1 f.2) s =
        .next (frames.flatMap (fun f => List.replicate (shdr s.cfg + f.2.length - 1) false ++ [goodFrame s.cfg f]),
          framedAll s frames) := by
  induction frames with
  | nil => intro s _ _ _; rfl
  | cons f frames ih =>
    intro s hw hz hl
    have h1 := feedAll_frame hw hz f (hl f (by simp))
    have h2 := ih (s.framed f) (State.framed_feedReady hw (hl f (by simp))) (by simp) (by simpa using fun g hg => hl g (List.mem_cons_of_mem _ hg))
    simp only [State.framed_cfg] at h2
    simp only [List.flatMap_cons]
    exact feedAll_append h1 h2

/-! ### Lists of elements -/

/-- The tag's first element splits a list (R157). -/
theorem firstValue_some {ies : List (Nat × List Byte)} {tag : Nat} {v : List Byte} (h : firstValue ies tag = some v) :
    ∃ pre post, ies = pre ++ (tag, v) :: post ∧ ∀ tv ∈ pre, tv.1 ≠ tag := by
  induction ies with
  | nil => simp [firstValue] at h
  | cons x ies ih =>
    by_cases hx : x.1 = tag
    · simp [firstValue, hx] at h
      exact ⟨[], ies, by rw [← hx, ← h]; rfl, by simp⟩
    · have h' : firstValue ies tag = some v := by simpa [firstValue, hx] using h
      obtain ⟨pre, post, rfl, hp⟩ := ih h'
      exact ⟨x :: pre, post, rfl, by simpa [hx] using hp⟩

theorem firstValue_none {ies : List (Nat × List Byte)} {tag : Nat} (h : firstValue ies tag = none) :
    ∀ tv ∈ ies, tv.1 ≠ tag := by
  simpa [firstValue] using h

/-- `IE.GET` on a payload that is a list of whole entries (R162). -/
theorem getResponse_list {c : Config} (hw : c.wf = true) {ies : List (Nat × List Byte)} (he : ∀ tv ∈ ies, encodable c tv) :
    (∀ tag v, firstValue ies tag = some v →
      getResponse c (listBytes c ies) tag v.length = { ok := true, obuf := some v, olen := some v.length }) ∧
    ∀ tag n, firstValue ies tag = none →
      getResponse c (listBytes c ies) tag n = { ok := false, cause := some .ieAbsent } := by
  refine ⟨fun tag v h => ?_, fun tag n h => ?_⟩
  · obtain ⟨pre, post, rfl, hp⟩ := firstValue_some h
    have := ieFind_first pre tag v (listBytes c post) v.length (ovh_pos hw)
      (fun tv htv => ⟨he tv (by simp [htv]), hp tv htv⟩) (he (tag, v) (by simp))
    have hb : listBytes c (pre ++ (tag, v) :: post) = listBytes c pre ++ (tlvBytes c tag v ++ listBytes c post) := by
      simp [listBytes]
    rw [hb, getResponse, this, if_pos rfl]
    rfl
  · have := ieFind_absent ies tag [] n (ovh_pos hw) (fun tv htv => ⟨he tv htv, firstValue_none h tv htv⟩)
      (.inl (by simpa using ovh_pos hw))
    rw [List.append_nil] at this
    rw [getResponse, this]
    rfl

/-- The state that additions which all succeed lead to, seen from the list they append to (R152). -/
structure Appended (ies : List (Nat × List Byte)) (s t : State) : Prop where
  cfg : t.cfg = s.cfg
  ctx : t.ctx = s.ctx
  port : t.port = s.port
  list : t.iel = { s.iel with size := s.iel.size + (listBytes s.cfg ies).length }
  data : (t.slot s.iel.slot).data.getRange 0 t.iel.size =
    (s.slot s.iel.slot).data.getRange 0 s.iel.size ++ listBytes s.cfg ies
  header : (t.slot s.iel.slot).header = (s.slot s.iel.slot).header
  length : (t.slot s.iel.slot).dataLength = (s.slot s.iel.slot).dataLength
  other : ∀ d, d ≠ s.iel.slot → t.slot d = s.slot d

theorem Appended.refl (s : State) : Appended [] s s :=
  ⟨rfl, rfl, rfl, by simp [listBytes], by simp [listBytes], rfl, rfl, fun _ _ => rfl⟩

theorem Appended.cons {ies : List (Nat × List Byte)} {tag : Nat} {v : List Byte} {s t : State}
    (h : Appended ies (s.appended tag v) t) : Appended ((tag, v) :: ies) s t := by
  have hl : listBytes s.cfg ((tag, v) :: ies) = tlvBytes s.cfg tag v ++ listBytes s.cfg ies := by simp [listBytes]
  refine ⟨by simpa using h.cfg, by simpa using h.ctx, by simpa using h.port, ?_, ?_, ?_, ?_, ?_⟩
  · rw [h.list, hl]; simp [Nat.add_assoc]
  · have hd := h.data
    simp only [State.appended_iel, State.appended_cfg, State.slot_appended] at hd
    rw [hd, hl, ← List.append_assoc]
    congr 1
    rw [Nat.add_assoc, Memory.getRange_append, Nat.zero_add, Memory.getRange_setRange_below _ _ _ _ _ (by omega),
      ← length_tlvBytes, Memory.getRange_setRange]
  · have := h.header
    simp only [State.appended_iel, State.slot_appended] at this
    rw [this]; rfl
  · have := h.length
    simpa only [State.appended_iel, State.slot_appended] using this
  · intro d hd
    have := h.other d (by simpa using hd)
    rw [this, State.slot_appended_ne _ _ _ hd]

/-- A run of additions whose result bits are all 1. -/
theorem runAll_adds {ies : List (Nat × List Byte)} :
    ∀ {s t : State} {oks : List Bool}, runAll (ies.map addElement) s = .next (oks, t) → (∀ b ∈ oks, b = true) →
      Appended ies s t ∧ ∀ tv ∈ ies, encodable s.cfg tv := by
  induction ies with
  | nil => intro s t oks h _; cases h; exact ⟨.refl s, by simp⟩
  | cons tv ies ih =>
    intro s t oks h hok
    obtain ⟨tag, v⟩ := tv
    obtain ⟨s1, oks', h1, h2, rfl⟩ := runAll_cons_next h
    obtain ⟨hr, h3⟩ := execIeAdd_next.1 h1
    have hs1 : s1.okLine = true := hok _ (by simp)
    by_cases hc : s.iel.cap < s.iel.size + ovh s.cfg + v.length
    · rw [if_pos hc] at h3
      subst h3
      exact absurd hs1 (by simp [State.okLine])
    · rw [if_neg hc, List.take_length] at h3
      subst h3
      obtain ⟨ha, he⟩ := ih h2 fun b hb => hok b (by simp [hb])
      refine ⟨ha.cons, ?_⟩
      intro x hx
      rcases List.mem_cons.1 hx with rfl | hx
      · exact ⟨hr.tag, hr.length⟩
      · simpa using he x hx

/-! ### What a framed or parsed slot holds -/

theorem framed_holds {s : State} {f : Header × List Byte} (h : goodFrame s.cfg f = true) :
    (s.framed f).rxe.holds f.1 f.2 := by
  rw [State.framed, if_pos h]; exact deliveredEnvelope_holds _ _ _ _

/-- `RXE` after frames without gaps: the last good one (R206). -/
theorem framedAll_facts (frames : List (Header × List Byte)) (s : State) :
    (framedAll s frames).cfg = s.cfg ∧ (s.ctx = .zero → (framedAll s frames).ctx = .zero) ∧
      (∀ f, (frames.filter (goodFrame s.cfg)).getLast? = some f → (framedAll s frames).rxe.holds f.1 f.2) ∧
      ((frames.filter (goodFrame s.cfg)).getLast? = none → (framedAll s frames).rxe = s.rxe) := by
  induction frames generalizing s with
  | nil => simp [framedAll]
  | cons f frames ih =>
    obtain ⟨a, b, c, d⟩ := ih (s.framed f)
    rw [framedAll]
    simp only [State.framed_cfg] at a b c d
    refine ⟨a, fun _ => b (by simp), ?_, ?_⟩
    · intro g hg
      by_cases hf : goodFrame s.cfg f = true
      · rw [List.filter_cons_of_pos hf] at hg
        rw [List.getLast?_cons] at hg
        cases hq : (frames.filter (goodFrame s.cfg)).getLast? with
        | none =>
          rw [hq] at hg; rw [d hq]; simp at hg; subst hg
          exact framed_holds hf
        | some g' => rw [hq] at hg; simp at hg; subst hg; exact c _ hq
      · rw [List.filter_cons_of_neg hf] at hg; exact c g hg
    · intro hg
      by_cases hf : goodFrame s.cfg f = true
      · rw [List.filter_cons_of_pos hf] at hg; simp at hg
      · rw [List.filter_cons_of_neg hf] at hg; rw [d hg, State.framed, if_neg hf]

theorem headerOf_take {l : List Byte} {n : Nat} (h : 6 ≤ n) : headerOf (l.take n) = headerOf l := by
  simp only [headerOf, List.getD_eq_getElem?_getD]
  repeat rw [List.getElem?_take_of_lt (by omega)]

/-- `PARSE` of a frame whose checksum is right (R223 to R225). -/
theorem execParse_frame {s : State} {e : Slot} {ibuf : List Byte} {h : Header} {p : List Byte} (hw : s.cfg.wf = true)
    (hl : (s.slot e).dataLength ≤ s.cfg.cap) (hb : ibuf = frameBytes h p) (hp : p.length ≤ s.cfg.cap)
    (hc : frameCsum s.cfg h p = h.checksum) :
    ∃ u, execParse e ibuf ibuf.length s = .next u ∧ u.resp = some { ok := true } ∧ (u.slot e).holds h p ∧
      u.cfg = s.cfg := by
  subst hb
  refine ⟨_, execParse_next.2 ⟨hw, hl, le_refl _, rfl⟩, ?_⟩
  rw [List.take_length]
  have : s.parsed e (frameBytes h p) = { s.delivered e h p with resp := some { ok := true } } := by
    rw [State.parsed, if_neg (by simp), if_neg (by simp; omega), if_neg (by simp [hc])]; simp
  rw [this]
  refine ⟨rfl, ?_, by simp⟩
  cases e <;> exact deliveredEnvelope_holds _ _ _ _

/-! ### Builders -/

/-- The additions of a build and its `ENV.SETLEN` (R236 to R238). -/
theorem buildTail_total (ies : List (Nat × List Byte)) :
    ∀ s : State, s.cfg.wf = true → s.iel.size ≤ s.iel.cap → s.iel.cap ≤ s.cfg.cap →
      (s.slot s.iel.slot).dataLength ≤ s.cfg.cap → (∀ tv ∈ ies, encodable s.cfg tv) →
      ∃ ok t, buildTail ies s = .next (ok, t) ∧ t.cfg = s.cfg ∧ t.ctx = s.ctx ∧ t.port = s.port ∧
        (∀ d, d ≠ s.iel.slot → t.slot d = s.slot d) ∧ (t.slot s.iel.slot).dataLength ≤ s.cfg.cap ∧
        (ok = true ↔ s.iel.size + (listBytes s.cfg ies).length ≤ s.iel.cap) ∧
        (ok = true → (t.slot s.iel.slot).holds (s.slot s.iel.slot).header
          ((s.slot s.iel.slot).data.getRange 0 s.iel.size ++ listBytes s.cfg ies)) := by
  induction ies with
  | nil =>
    intro s hw h1 h2 h3 _
    refine ⟨true, { s.withSlot s.iel.slot { s.slot s.iel.slot with dataLength := s.iel.size } with
      resp := some { ok := true } }, ?_, ?_⟩
    · rw [buildTail]
      have : exec .envSetLen s = _ := execEnvSetLen_next.2 ⟨hw, ⟨h1, h2⟩, h3, rfl⟩
      rw [this]
    · refine ⟨by simp, by simp, by simp, fun d hd => State.slot_withSlot_ne s _ _ hd, ?_, by simpa [listBytes] using h1, fun _ => ?_⟩
      · simp; omega
      · simp [listBytes, Envelope.holds, Envelope.payload]; rfl
  | cons tv ies ih =>
    intro s hw h1 h2 h3 he
    obtain ⟨tag, v⟩ := tv
    have h0 := he (tag, v) (by simp)
    have hx : exec (addElement (tag, v)) s = _ := execIeAdd_next.2 ⟨⟨hw, h1, h2, h3, h0.1, h0.2, le_refl _⟩, rfl⟩
    have hl : (listBytes s.cfg ((tag, v) :: ies)).length = ovh s.cfg + v.length + (listBytes s.cfg ies).length := by
      simp [listBytes]
    by_cases hc : s.iel.cap < s.iel.size + ovh s.cfg + v.length
    · rw [if_pos hc] at hx
      refine ⟨false, { s with resp := some { ok := false, cause := some .ieCapacity } }, ?_, rfl, rfl, rfl,
        fun _ _ => by simp, by simpa, ?_, by simp⟩
      · rw [buildTail, hx]; simp
      · rw [hl]; simp; omega
    · rw [if_neg hc, List.take_length] at hx
      obtain ⟨ok, t, g1, g2, g3, g4, g5, g6, g7, g8⟩ := ih (s.appended tag v) (by simpa) (by simp; omega) (by simpa)
        (by simp; exact h3) (by simpa using fun a b h => he (a, b) (List.mem_cons_of_mem _ h))
      refine ⟨ok, t, ?_, by simpa using g2, by simpa using g3, by simpa using g4, ?_, by simpa using g6, ?_, ?_⟩
      · rw [buildTail, hx, ← g1]; simp
      · intro d hd; rw [g5 d (by simpa using hd), State.slot_appended_ne _ _ _ hd]
      · rw [g7, hl]; simp only [State.appended_iel, State.appended_cfg]; omega
      · intro hok
        have := g8 hok
        simp only [State.appended_iel, State.appended_cfg, State.slot_appended] at this
        have e1 : listBytes s.cfg ((tag, v) :: ies) = tlvBytes s.cfg tag v ++ listBytes s.cfg ies := by simp [listBytes]
        rw [e1, ← List.append_assoc]
        have e2 : ((s.slot s.iel.slot).data.setRange s.iel.size (tlvBytes s.cfg tag v)).getRange 0
            (s.iel.size + ovh s.cfg + v.length) =
            (s.slot s.iel.slot).data.getRange 0 s.iel.size ++ tlvBytes s.cfg tag v := by
          rw [Nat.add_assoc, Memory.getRange_append, Nat.zero_add, Memory.getRange_setRange_below _ _ _ _ _ (by omega),
            ← length_tlvBytes, Memory.getRange_setRange]
        rw [e2] at this; exact this

theorem loByte_zeroExtend (b : Byte) : loByte (b.zeroExtend 16) = b := by
  apply BitVec.eq_of_toNat_eq; rw [toNat_loByte]; simp; exact b.isLt

/-- A tag of `8*TAG_W` bits can be presented (R117). -/
theorem tagFits_toNat (c : Config) (x : BitVec (8 * c.tagW)) : c.tagFits x.toNat = true := decide_eq_true x.isLt

/-- A build's operations before its additions (R236). -/
theorem buildHead_run {s : State} {e : Slot} (unit : Byte) (svc : Half) (msg : Byte) (hw : s.cfg.wf = true)
    (hl : (s.slot e).dataLength ≤ s.cfg.cap) :
    ∃ oks s1, runAll (buildHead s.cfg e unit svc msg) s = .next (oks, s1) ∧ s1.cfg = s.cfg ∧ s1.ctx = s.ctx ∧
      s1.port = s.port ∧ s1.iel = ⟨e, s.cfg.cap, 0⟩ ∧ (∀ d, d ≠ e → s1.slot d = s.slot d) ∧
      (s1.slot e).dataLength = 0 ∧ (s1.slot e).data = .zero ∧
      (s1.slot e).header = { cookie := 0, unitId := unit, serviceId := svc, messageId := msg, checksum := 0 } := by
  refine ⟨[true, true, true, true, true], { s.withSlot e {
      cookie := 0, unitId := unit, serviceId := svc, messageId := msg, checksum := 0, dataLength := 0, data := .zero } with
      iel := ⟨e, s.cfg.cap, 0⟩, resp := some { ok := true } }, ?_, by simp, by simp, by simp, rfl,
    fun d hd => State.slot_withSlot_ne s _ _ hd, ?_, ?_, ?_⟩
  · cases e <;> simp [State.slot] at hl <;>
      simp [runAll, buildHead, exec, execEnvClr, execEnvSet, execIeNew, requireAll, State.configOk, hw, State.slotOk,
        Envelope.fits, hl, State.withSlot, State.slot, Envelope.setField, Envelope.zero, loByte_zeroExtend]
  · cases e <;> rfl
  · cases e <;> rfl
  · cases e <;> rfl

end Sys2Proof.Machine
end

