-- ==== Sys2Proof/Tests/Slice0.lean ====
section
/-! SUPPORT. The model's own tests: ill-formed terms refused, operations decoded from the codes of R118, one step per vector of
`95_test_vectors.md` (profile T), and a state for the hypotheses of every statement. -/

open Sys2Proof Sys2Proof.Machine

namespace Sys2Proof.Tests

/-! ### Well-formedness: each check refuses a term that breaks it alone (R11, R117, R150, R151, R154, R230) -/

theorem test_wf_profileT : Config.profileT.wf = true := by decide
theorem test_wf_cap : Config.wf { Config.profileT with cap := 0 } = false := by decide
theorem test_wf_tagW_low : Config.wf { Config.profileT with tagW := 0 } = false := by decide
theorem test_wf_tagW_high : Config.wf { Config.profileT with tagW := 5 } = false := by decide
theorem test_wf_lenW_low : Config.wf { Config.profileT with lenW := 0 } = false := by decide
theorem test_wf_lenW_high : Config.wf { Config.profileT with lenW := 5 } = false := by decide
theorem test_wf_lenfW_low : Config.wf { Config.profileT with lenfW := 0 } = false := by decide
theorem test_wf_lenfW_high : Config.wf { Config.profileT with lenfW := 5 } = false := by decide
theorem test_wf_declarable : Config.wf { Config.profileT with lenfBias := 224 } = false := by decide
theorem test_wf_declarable_most : Config.wf { Config.profileT with lenfBias := 223 } = true := by decide
theorem test_wf_parse : Instr.wf Config.profileT (.parse .txe [0x00, 0x02] 3) = false := by decide
theorem test_wf_ieNew : Instr.wf Config.profileT (.ieNew .txe 33) = false := by decide
theorem test_wf_ieAdd_operand : Instr.wf Config.profileT (.ieAdd 0x10 [0x02] 2) = false := by decide
theorem test_wf_ieAdd_length : ∀ ibuf : List Byte, ibuf.length = 256 → Instr.wf Config.profileT (.ieAdd 0x10 ibuf 256) = false := by
  intro ibuf h
  simp [Instr.wf, Config.lengthFits, Config.profileT, h]
theorem test_wf_ieAdd_tag : Instr.wf Config.profileT (.ieAdd 0x100 [0x02, 0x01] 2) = false := by decide
theorem test_wf_ieGet_tag : Instr.wf Config.profileT (.ieGet .rxe 0x100 2) = false := by decide
theorem test_wf_ieAdd_good : Instr.wf Config.profileT (.ieAdd 0x10 [0x02, 0x01] 2) = true := by decide

/-! ### Decoding: the codes of R118 bit by bit, with the operands of program P1 and others of the spec -/

theorem test_decode_ctxInit : decode { op := 0b00000#5 } = .ok (.ctxInit) := rfl
theorem test_decode_feed : decode { op := 0b00001#5, b := 0xD9 } = .ok (.feed 0xD9) := rfl
theorem test_decode_parse : decode { op := 0b00010#5, e := 0b1#1, n := 2, ibuf := [0x5A, 0x00] } = .ok (.parse .txe [0x5A, 0x00] 2) := rfl
theorem test_decode_envClr : decode { op := 0b00011#5, e := 0b1#1 } = .ok (.envClr .txe) := rfl
theorem test_decode_envSet_unitId : decode { op := 0b00100#5, e := 0b1#1, f := 0b001#3, v := 0x0002 } = .ok (.envSet .txe .unitId 0x0002) := rfl
theorem test_decode_envSet_serviceId : decode { op := 0b00100#5, e := 0b1#1, f := 0b010#3, v := 0x0102 } = .ok (.envSet .txe .serviceId 0x0102) := rfl
theorem test_decode_envSet_messageId : decode { op := 0b00100#5, e := 0b1#1, f := 0b011#3, v := 0x0003 } = .ok (.envSet .txe .messageId 0x0003) := rfl
theorem test_decode_envSet_cookie : decode { op := 0b00100#5, e := 0b0#1, f := 0b000#3, v := 0x005A } = .ok (.envSet .rxe .cookie 0x005A) := rfl
theorem test_decode_envSet_checksum : decode { op := 0b00100#5, e := 0b0#1, f := 0b100#3, v := 0x0012 } = .ok (.envSet .rxe .checksum 0x0012) := rfl
theorem test_decode_envSetLen : decode { op := 0b00101#5 } = .ok (.envSetLen) := rfl
theorem test_decode_ieNew : decode { op := 0b00110#5, e := 0b1#1, n := 32 } = .ok (.ieNew .txe 32) := rfl
theorem test_decode_ieAdd : decode { op := 0b00111#5, tag := 0x10, n := 2, ibuf := [0x02, 0x01] } = .ok (.ieAdd 0x10 [0x02, 0x01] 2) := rfl
theorem test_decode_ieSize : decode { op := 0b01000#5 } = .ok (.ieSize) := rfl
theorem test_decode_ieGet : decode { op := 0b01001#5, e := 0b0#1, tag := 0x10, n := 2 } = .ok (.ieGet .rxe 0x10 2) := rfl
theorem test_decode_h2n16 : decode { op := 0b01010#5, v := 0x0102 } = .ok (.h2n16 0x0102) := rfl
theorem test_decode_n2h16 : decode { op := 0b01011#5, v := 0x0201 } = .ok (.n2h16 0x0201) := rfl
theorem test_decode_cksCalc : decode { op := 0b01100#5, e := 0b1#1 } = .ok (.cksCalc .txe) := rfl
theorem test_decode_cksVfy : decode { op := 0b01101#5, e := 0b1#1 } = .ok (.cksVfy .txe) := rfl
theorem test_decode_cksSeal : decode { op := 0b01110#5, e := 0b1#1 } = .ok (.cksSeal .txe) := rfl
theorem test_decode_ser : decode { op := 0b01111#5, e := 0b1#1 } = .ok (.ser .txe) := rfl
theorem test_decode_sers : decode { op := 0b10000#5, e := 0b1#1 } = .ok (.sers .txe) := rfl
theorem test_decode_reserved_first : decode { op := 0b10001#5 } = .error (.reservedCode 0x11#5) := rfl
theorem test_decode_reserved_last : decode { op := 0b11111#5 } = .error (.reservedCode 0x1F#5) := rfl
theorem test_decode_selector_first : decode { op := 0b00100#5, f := 0b101#3 } = .error (.reservedSelector 5#3) := rfl
theorem test_decode_selector_last : decode { op := 0b00100#5, f := 0b111#3 } = .error (.reservedSelector 7#3) := rfl

/-! ### One step per vector -/

/-- An envelope as the vectors write it: cookie, unitId, serviceId, messageId, checksum, payload. -/
def env (c u : Byte) (s : Half) (m k : Byte) (p : List Byte) : Envelope :=
  { cookie := c, unitId := u, serviceId := s, messageId := m, checksum := k, dataLength := p.length,
    data := Memory.zero.setRange 0 p }

/-- The payload of program P1. -/
def payloadP1 : List Byte := [0x10, 0x02, 0x02, 0x01, 0x11, 0x01, 0xAA]

/-- The envelope of program P1 with a checksum byte. -/
def envP1 (k : Byte) : Envelope := env 0x00 0x02 0x0102 0x03 k payloadP1

/-- Reset in profile T with an envelope in `TXE`. -/
def withTxe (v : Envelope) : State := { State.reset with txe := v }

/-- A context inside the frame F1, `count` bytes of it fed. -/
def inF1 (lenf k : Byte) (declared count : Nat) : State :=
  { State.reset with ctx := {
      count := count, phase := .awaitingPayload, declLen := declared
      hdr := Memory.zero.setRange 0 [lenf, 0x00, 0x02, 0x01, 0x02, 0x03, k]
      payload := Memory.zero.setRange 0 (payloadP1.take (count - 7)) } }

/-- A context that awaits the last byte of the stream header `h`. -/
def inHeader (h : List Byte) : State :=
  { State.reset with ctx := { Ctx.zero with count := h.length, hdr := Memory.zero.setRange 0 h } }

/-- The state after an operation that answers one. -/
def ran (i : Instr) (s : State) : Option State :=
  match exec i s with
  | .next t => some t
  | .fault _ => none
  | .refused _ => none

/-- The output lines of an operation. -/
def said (i : Instr) (s : State) : Option Response := (ran i s).bind State.resp

/-- A slot after an operation, as the vectors write it. -/
def left (e : Slot) (i : Instr) (s : State) : Option (Header × Nat × List Byte) :=
  (ran i s).map fun t => ((t.slot e).header, (t.slot e).dataLength, (t.slot e).payload)

/-- The context after an operation: count, phase, declLen. -/
def context (i : Instr) (s : State) : Option (Nat × Phase × Nat) :=
  (ran i s).map fun t => (t.ctx.count, t.ctx.phase, t.ctx.declLen)

/-- K1, K3 -/
theorem test_h2n16 : said (.h2n16 0x0102) State.reset = some { ok := true, r := some 0x0201 } := by decide
/-- K4 -/
theorem test_n2h16 : said (.n2h16 0xFF00) State.reset = some { ok := true, r := some 0x00FF } := by decide
/-- K14: the carries out of bit 7 are dropped -/
theorem test_cksCalc_wraps : said (.cksCalc .txe) (withTxe (env 0xFF 0xFF 0xFFFF 0xFF 0x00 [0xFF])) = some { ok := true, r := some 0x00FA } := by decide
/-- K15: bytes beyond `dataLength` are not summed -/
theorem test_cksCalc_tail : said (.cksCalc .txe) (withTxe { env 0x00 0x02 0x0102 0x03 0x00 [0x10, 0x00, 0x77] with dataLength := 2 }) =
    some { ok := true, r := some 0x0018 } := by decide
/-- K10 -/
theorem test_csumXor : csumXor 0x00 0x02 0x0102 0x03 payloadP1 = 0xA9 := by decide
/-- P1 step 10 -/
theorem test_cksVfy_good : said (.cksVfy .txe) (withTxe (envP1 0xD9)) = some { ok := true } := by decide
/-- P1 step 9 -/
theorem test_cksVfy_bad : said (.cksVfy .txe) (withTxe (envP1 0x00)) = some { ok := false, cause := some .csumMismatch } := by decide
/-- P1 step 10, with `CSUM_ADD` -/
theorem test_cksSeal : (ran (.cksSeal .txe) (withTxe (envP1 0x00))).map (·.txe.checksum) = some 0xD9 := by decide
/-- I1 -/
theorem test_ieNew : (ran (.ieNew .txe 32) State.reset).map State.iel = some { slot := .txe, cap := 32, size := 0 } := by decide
/-- U10: a capacity beyond the buffer is refused -/
theorem test_ieNew_beyond : exec (.ieNew .txe 33) State.reset = .refused .capacityBeyondBuffer := rfl
/-- `IEL` rooted at `TXE` with the bytes of P4 step 3. -/
def listP4 : State :=
  { withTxe { Envelope.zero with data := Memory.zero.setRange 0 [0x01, 0x03, 0x09, 0x09, 0x09] } with
    iel := { slot := .txe, cap := 8, size := 5 } }

/-- P4 step 5: an exact fill -/
theorem test_ieAdd_fills : (ran (.ieAdd 0x02 [0x07] 1) listP4).map (fun t => (t.txe.data.getRange 0 8, t.iel.size, t.txe.dataLength)) =
    some ([0x01, 0x03, 0x09, 0x09, 0x09, 0x02, 0x01, 0x07], 8, 0) := by decide
/-- P4 step 4: one byte more than fits -/
theorem test_ieAdd_beyond : exec (.ieAdd 0x02 [0x07, 0x07] 2) listP4 =
    .next { listP4 with resp := some { ok := false, cause := some .ieCapacity } } := rfl
/-- P4 step 7, before the last addition -/
theorem test_ieSize : said .ieSize listP4 = some { ok := true, r := some 5 } := by decide
/-- I11: the first entry of the tag decides, and the second is not reached -/
theorem test_ieGet_first : said (.ieGet .txe 0x10 2) (withTxe (env 0 0 0 0 0 [0x10, 0x01, 0xAA, 0x10, 0x02, 0xBB, 0xCC])) =
    some { ok := false, cause := some .ieAbsent } := by decide
/-- I18: a value that looks like an entry is stepped over -/
theorem test_ieGet_steps_over : said (.ieGet .txe 0x31 1) (withTxe (env 0 0 0 0 0 [0x30, 0x02, 0x31, 0x01, 0x31, 0x01, 0x55])) =
    some { ok := true, obuf := some [0x55], olen := some 1 } := by decide
/-- E1 -/
theorem test_envClr : (ran (.envClr .txe) (withTxe (envP1 0xD9))).map State.txe = some Envelope.zero := by decide
/-- E2: an 8-bit field takes the low byte -/
theorem test_envSet_low_byte : left .txe (.envSet .txe .unitId 0xFF02) (withTxe (envP1 0xD9)) =
    some ({ cookie := 0x00, unitId := 0x02, serviceId := 0x0102, messageId := 0x03, checksum := 0xD9 }, 7, payloadP1) := by decide
/-- E2 -/
theorem test_envSet_serviceId : (ran (.envSet .rxe .serviceId 0x0102) State.reset).map (·.rxe.serviceId) = some 0x0102 := by decide
/-- P4 step 8, before the last addition -/
theorem test_envSetLen : (ran .envSetLen listP4).map (fun t => (t.txe.dataLength, t.rxe.dataLength)) = some (5, 0) := by decide
/-- E3 -/
theorem test_ser : said (.ser .txe) (withTxe (envP1 0xD9)) = some {
    ok := true, obuf := some [0x00, 0x02, 0x01, 0x02, 0x03, 0xD9, 0x10, 0x02, 0x02, 0x01, 0x11, 0x01, 0xAA], olen := some 13 } := by decide
/-- E3 -/
theorem test_sers : said (.sers .txe) (withTxe (envP1 0xD9)) = some {
    ok := true, obuf := some [0x07, 0x00, 0x02, 0x01, 0x02, 0x03, 0xD9, 0x10, 0x02, 0x02, 0x01, 0x11, 0x01, 0xAA]
    olen := some 14 } := by decide
/-- R96: a length field of two bytes that counts the whole frame -/
theorem test_sers_bias : said (.sers .txe) { withTxe (env 0x5A 0 0 0x01 0x5B []) with cfg := { Config.profileT with lenfW := 2, lenfBias := 6 } } =
    some { ok := true, obuf := some [0x00, 0x06, 0x5A, 0x00, 0x00, 0x00, 0x01, 0x5B], olen := some 8 } := by decide
/-- R190's example -/
theorem test_ctxInit : context .ctxInit (inF1 0x07 0xD9 7 9) = some (0, .awaitingHeader, 0) := by decide
/-- F1 byte 7 -/
theorem test_feed_enters_payload : context (.feed 0xD9) (inHeader [0x07, 0x00, 0x02, 0x01, 0x02, 0x03]) = some (7, .awaitingPayload, 7) := by decide
/-- F1 byte 14 -/
theorem test_feed_completes : left .rxe (.feed 0xAA) (inF1 0x07 0xD9 7 13) =
    some ({ cookie := 0x00, unitId := 0x02, serviceId := 0x0102, messageId := 0x03, checksum := 0xD9 }, 7, payloadP1) := by decide
/-- A1 -/
theorem test_parse_accepts : left .txe (.parse .txe [0x00, 0x02, 0x01, 0x02, 0x03, 0xD9, 0x10, 0x02, 0x02, 0x01, 0x11, 0x01, 0xAA] 13) State.reset =
    some ({ cookie := 0x00, unitId := 0x02, serviceId := 0x0102, messageId := 0x03, checksum := 0xD9 }, 7, payloadP1) := by decide
/-- A8: the length test comes before the checksum test -/
theorem test_parse_length_first : said (.parse .txe ([0x00, 0x02, 0x01, 0x02, 0x03, 0x00] ++ List.replicate 33 0x01) 39) State.reset =
    some { ok := false, cause := some .lenOverflow } := by decide

/-! ### A state for the hypotheses of every statement -/

/-- P1 with everything in it: a sealed frame in both slots, a list rooted at `TXE`, a frame under way. -/
def busy : State :=
  { inF1 0x07 0xD9 7 13 with rxe := envP1 0xD9, txe := envP1 0xD9, iel := { slot := .txe, cap := 9, size := 7 } }

/-- The same with a transaction waiting. -/
def busyWith (t : Transaction) : State := { busy with port := [t] }

theorem sound_range (p : List Byte) (h : p.length ≤ 32) : (Memory.zero.setRange 0 p).sound 32 :=
  Memory.sound_setRange p (Memory.sound_zero _) (by omega)

theorem busy_inv : busy.Inv :=
  ⟨by decide, by decide, by decide, by decide, by decide, sound_range _ (by decide), sound_range _ (by decide),
    Memory.sound_setRange _ (Memory.sound_zero _) (by decide), sound_range _ (by decide), by decide⟩

theorem witness_ReservedEncodingsAreRefused :
    (busyWith { op := 0x11 }).port = { op := 0x11 } :: [] ∧ 0x11 ≤ (0x11#5).toNat ∧ 0x11 ≤ (0x1F#5).toNat ∧
      5 ≤ (5#3).toNat ∧ 5 ≤ (7#3).toNat :=
  by decide
theorem witness_StepRunsTheOldestTransaction :
    (busyWith { op := 0x08 }).port = { op := 0x08 } :: [] ∧ decode { op := 0x08 } = .ok .ieSize ∧ State.reset.port = [] :=
  ⟨rfl, rfl, rfl⟩
theorem witness_ResetMeetsTheInvariant :
    Config.profileT.wf = true ∧ Config.wf ⟨1, 4, 4, 4, 0, false, .uninterpreted 0⟩ = true :=
  by decide
theorem witness_StepKeepsTheInvariant :
    State.Inv (busyWith { op := 0x01, b := 0xAA }) ∧ ∃ t, step (busyWith { op := 0x01, b := 0xAA }) = .next t :=
  ⟨⟨busy_inv.1, busy_inv.2, busy_inv.3, busy_inv.4, busy_inv.5, busy_inv.6, busy_inv.7, busy_inv.8, busy_inv.9, busy_inv.10⟩, _, rfl⟩
theorem witness_ResetEqualsTheInitialisingOperations :
    busy.Inv :=
  busy_inv
theorem witness_NoOperationLeavesItsBuffers :
    Space.rxeData.capacity busy.cfg < 0 + 33 ∧ Space.txeData.capacity busy.cfg < 32 + 1 ∧
      Space.ctxHdr.capacity busy.cfg < 7 + [(0 : Byte)].length :=
  by decide
theorem witness_OperationsWriteOnlyTheirWriteSet :
    (∃ t, exec (.ieAdd 0x20 [] 0) busy = .next t) ∧ (∃ t, exec (.cksSeal .rxe) busy = .next t) ∧
      writesField .cookie (.cksSeal .rxe) = false ∧ writesSlot busy.iel.slot (.cksSeal .rxe) ≠ some .txe ∧
      mayDraw (.cksSeal .rxe) = false ∧ writesData (.cksSeal .rxe) = false ∧ writesLength (.cksSeal .rxe) = false :=
  ⟨⟨_, rfl⟩, ⟨_, rfl⟩, by decide, by decide, rfl, rfl, rfl⟩
theorem witness_RejectionsLeaveOnlyTheirEffects :
    (∃ t r, exec (.feed 0xAB) busy = .next t ∧ t.resp = some r ∧ r.ok = false ∧ r.cause = some .csumMismatch) ∧
      (∃ t r, exec (.feed 0x07) State.reset = .next t ∧ t.resp = some r ∧ r.ok = false ∧ r.cause = none) ∧
      ∃ t r, exec (.parse .txe [] 0) busy = .next t ∧ t.resp = some r ∧ r.ok = false :=
  ⟨⟨_, _, rfl, rfl, rfl, rfl⟩, ⟨_, _, rfl, rfl, rfl, rfl⟩, ⟨_, _, rfl, rfl, rfl⟩⟩
theorem witness_OnlyFiveOperationsReturnZero :
    ∃ t, exec (.cksVfy .rxe) busy = .next t :=
  ⟨_, rfl⟩
theorem witness_ReceiveAndTransmitCommute :
    receiveOnly (.feed 0xAA) = true ∧ transmitOnly busy.iel.slot (.ieAdd 0x20 [] 0) = true ∧
      ∃ s1 s2, exec (.feed 0xAA) busy = .next s1 ∧ exec (.ieAdd 0x20 [] 0) s1 = .next s2 :=
  ⟨rfl, rfl, _, _, rfl, rfl⟩
theorem witness_RepeatedOperationsAreIdempotent :
    (∀ b, Instr.parse .rxe [0, 0, 0, 0, 0, 0] 6 ≠ .feed b) ∧ (∀ tag ibuf n, Instr.parse .rxe [0, 0, 0, 0, 0, 0] 6 ≠ .ieAdd tag ibuf n) ∧
      ∃ t, exec (.parse .rxe [0, 0, 0, 0, 0, 0] 6) busy = .next t :=
  ⟨by simp, by simp, _, rfl⟩
theorem witness_TailBytesNeverReachAResult :
    readsSlot (.ser .txe) = some .txe ∧ busy.cfg = (withTxe { envP1 0xD9 with data := (envP1 0xD9).data.set 7 0x77 }).cfg ∧
      (busy.slot .txe).equiv ((withTxe { envP1 0xD9 with data := (envP1 0xD9).data.set 7 0x77 }).slot .txe) ∧
      ∃ t, exec (.ser .txe) busy = .next t :=
  ⟨rfl, rfl, ⟨rfl, rfl, by decide⟩, _, rfl⟩
/-- A broken `RXE`, a list rooted at a broken `TXE`, broken contexts and broken lists. -/
def withBroken (v w : Envelope) (l : Iel) (x : Ctx) : State := { busy with rxe := v, txe := w, iel := l, ctx := x }

theorem witness_BrokenStateIsRefused :
    Config.profileT.wf = true ∧
      (withBroken { envP1 0xD9 with dataLength := 33 } .zero ⟨.txe, 0, 0⟩ busy.ctx).cfg.wf = true ∧
      Config.profileT.cap < ((withBroken { envP1 0xD9 with dataLength := 33 } .zero ⟨.txe, 0, 0⟩ busy.ctx).slot .rxe).dataLength ∧
      busy.ctx.consistent Config.profileT = true ∧
      Config.profileT.cap < ((withBroken .zero { envP1 0xD9 with dataLength := 33 } ⟨.txe, 7, 9⟩ busy.ctx).slot .txe).dataLength ∧
      (7 ≤ 9 ∧ 9 ≤ Config.profileT.cap) ∧
      Ctx.consistent Config.profileT { Ctx.zero with count := 7 } = false ∧
      Ctx.consistent Config.profileT { busy.ctx with count := 14 } = false ∧
      ((⟨.txe, 0, 1⟩ : Iel).cap < (⟨.txe, 0, 1⟩ : Iel).size ∧ Config.profileT.cap < (⟨.txe, 33, 0⟩ : Iel).cap) :=
  by decide
theorem witness_EndianOperationsSwapBytes :
    busy.cfg.wf = true :=
  by decide
theorem witness_EndianOperationsAreInvolutions :
    busy.cfg.wf = true :=
  by decide
theorem witness_CalcReturnsTheChecksum :
    busy.cfg.wf = true ∧ (busy.slot .rxe).dataLength ≤ busy.cfg.cap ∧
      ((withTxe (env 0 0 0 0 0 (List.replicate 32 0))).slot .txe).dataLength = busy.cfg.cap :=
  by decide
theorem witness_VerifyComparesTheChecksum :
    busy.cfg.wf = true ∧ (busy.slot .rxe).dataLength ≤ busy.cfg.cap ∧
      (busy.slot .rxe).csum busy.cfg = (busy.slot .rxe).checksum ∧ (envP1 0xD8).csum busy.cfg ≠ (envP1 0xD8).checksum :=
  by decide
theorem witness_SealStoresTheChecksum :
    busy.cfg.wf = true ∧ (busy.slot .txe).dataLength ≤ busy.cfg.cap :=
  by decide
theorem witness_ChecksumByteChangesAreDetected :
    busy.cfg.wf = true ∧ (busy.slot .rxe).dataLength ≤ busy.cfg.cap ∧
      (busy.slot .rxe).csum busy.cfg = (busy.slot .rxe).checksum ∧ (0xD8 : Byte) ≠ (busy.slot .rxe).checksum :=
  by decide
theorem witness_PayloadBitFlipsAreDetected :
    busy.cfg.wf = true ∧ (busy.slot .rxe).dataLength ≤ busy.cfg.cap ∧
      (busy.slot .rxe).csum busy.cfg = (busy.slot .rxe).checksum ∧ 6 < (busy.slot .rxe).dataLength ∧ 7 < 8 :=
  by decide
theorem witness_NewListIsEmpty :
    busy.cfg.wf = true ∧ (busy.slot .txe).dataLength ≤ busy.cfg.cap ∧ 32 ≤ busy.cfg.cap ∧ busy.cfg.cap < 33 :=
  by decide
theorem witness_AddAppendsOneEntry :
    busy.cfg.wf = true ∧ busy.iel.cap ≤ busy.cfg.cap ∧ (busy.slot busy.iel.slot).dataLength ≤ busy.cfg.cap ∧
      busy.cfg.tagFits 0xFF = true ∧ busy.cfg.lengthFits 0 = true ∧ ([] : List Byte).length = 0 ∧
      busy.iel.size + ovh busy.cfg + 0 ≤ busy.iel.cap :=
  by decide
theorem witness_AddSucceedsExactlyWhenItFits :
    busy.cfg.wf = true ∧ busy.iel.size ≤ busy.iel.cap ∧ busy.iel.cap ≤ busy.cfg.cap ∧
      (busy.slot busy.iel.slot).dataLength ≤ busy.cfg.cap ∧ busy.cfg.tagFits 0xFF = true ∧ busy.cfg.lengthFits 1 = true ∧
      [(0 : Byte)].length = 1 ∧ ovh busy.cfg + 0 = busy.iel.cap - busy.iel.size ∧ busy.iel.cap - busy.iel.size < ovh busy.cfg + 1 :=
  by decide
theorem witness_AddRefusesWhatItCannotEncode :
    busy.cfg.wf = true ∧ busy.iel.size ≤ busy.iel.cap ∧ busy.iel.cap ≤ busy.cfg.cap ∧
      (busy.slot busy.iel.slot).dataLength ≤ busy.cfg.cap ∧ busy.cfg.tagFits 0xFF = true ∧ 2 ^ (8 * busy.cfg.lenW) ≤ 256 ∧
      2 ^ (8 * busy.cfg.tagW) ≤ 0x100 ∧ 255 < 2 ^ (8 * busy.cfg.lenW) ∧ [(0 : Byte)].length < 2 ∧ 2 < 2 ^ (8 * busy.cfg.lenW) :=
  by decide
theorem witness_AddUsesTheFirstBytes :
    1 ≤ [(0x02 : Byte), 0x01].length :=
  by decide
theorem witness_SizeReturnsTheListSize :
    busy.cfg.wf = true ∧ busy.iel.size ≤ busy.iel.cap ∧ busy.iel.cap ≤ busy.cfg.cap ∧ busy.iel.size < 2 ^ 16 :=
  by decide
theorem witness_GetReturnsTheFirstMatch :
    busy.cfg.wf = true ∧ (busy.slot .rxe).dataLength ≤ busy.cfg.cap ∧
      (∀ tv ∈ [(0x10, [(0x02 : Byte), 0x01])], encodable busy.cfg tv ∧ tv.1 ≠ 0x11) ∧ encodable busy.cfg (0x11, [0xAA]) ∧
      (busy.slot .rxe).payload =
        listBytes busy.cfg [(0x10, [(0x02 : Byte), 0x01])] ++ (tlvBytes busy.cfg 0x11 [0xAA] ++ []) :=
  ⟨by decide, by decide, by simp [encodable]; decide, ⟨by decide, by decide⟩, by decide⟩
/-- I13 and I14: a list whose last entry runs past the payload, and one cut inside an entry's header. -/
theorem witness_GetStopsAtADefect :
    busy.cfg.wf = true ∧ (env 0 0 0 0 0 [0x10, 0x02, 0xAA, 0xBB, 0x11, 0x05]).dataLength ≤ busy.cfg.cap ∧
      busy.cfg.tagFits 0x11 = true ∧ (∀ tv ∈ [(0x10, [(0xAA : Byte), 0xBB])], encodable busy.cfg tv ∧ tv.1 ≠ 0x11) ∧
      [(0x11 : Byte), 0x05].length < ovh busy.cfg + beVal (slice [0x11, 0x05] busy.cfg.tagW busy.cfg.lenW) ∧
      [(0x11 : Byte)].length < ovh busy.cfg ∧
      (env 0 0 0 0 0 [0x10, 0x02, 0xAA, 0xBB, 0x11, 0x05]).payload =
        listBytes busy.cfg [(0x10, [(0xAA : Byte), 0xBB])] ++ [0x11, 0x05] ∧
      (env 0 0 0 0 0 [0x10, 0x02, 0xAA, 0xBB, 0x11]).payload =
        listBytes busy.cfg [(0x10, [(0xAA : Byte), 0xBB])] ++ [0x11] :=
  ⟨by decide, by decide, by decide, by simp [encodable]; decide, by decide, by decide, by decide, by decide⟩
theorem witness_GetWritesOnlyItsOutput :
    busy.cfg.wf = true ∧ (busy.slot .rxe).dataLength ≤ busy.cfg.cap ∧ busy.cfg.tagFits 0xFF = true :=
  by decide
theorem witness_ListsReadBackAsBuilt :
    (∃ t, runAll (.ieNew .txe 32 :: [(0x10, [(0x02 : Byte), 0x01]), (0x10, [])].map addElement ++ [.envSetLen]) busy =
        .next ([true, true, true, true], t) ∧ t.cfg.tagFits 0x11 = true) ∧ (∀ b ∈ [true, true, true, true], b = true) ∧
      firstValue [(0x10, [(0x02 : Byte), 0x01]), (0x10, [])] 0x10 = some [0x02, 0x01] ∧
      firstValue [(0x10, [(0x02 : Byte), 0x01]), (0x10, [])] 0x11 = none :=
  ⟨⟨_, rfl, rfl⟩, by decide, rfl, rfl⟩
theorem witness_ClearZeroesTheSlot :
    busy.cfg.wf = true ∧ (busy.slot .txe).dataLength ≤ busy.cfg.cap :=
  by decide
theorem witness_SetWritesOneHeaderField :
    busy.cfg.wf = true ∧ (busy.slot .txe).dataLength ≤ busy.cfg.cap :=
  by decide
theorem witness_SerialiseEmitsTheFrame :
    busy.cfg.wf = true ∧ (busy.slot .txe).dataLength ≤ busy.cfg.cap :=
  by decide
theorem witness_SerialiseStreamEmitsTheStreamFrame :
    busy.cfg.wf = true ∧ (busy.slot .txe).dataLength ≤ busy.cfg.cap :=
  by decide
theorem witness_SendSealsAndEmits :
    busy.cfg.wf = true ∧ (busy.slot .txe).dataLength ≤ busy.cfg.cap :=
  by decide
theorem witness_SetLengthCopiesTheListSize :
    busy.cfg.wf = true ∧ busy.iel.size ≤ busy.iel.cap ∧ busy.iel.cap ≤ busy.cfg.cap ∧
      (busy.slot busy.iel.slot).dataLength ≤ busy.cfg.cap :=
  by decide
theorem witness_InitZeroesTheContext :
    busy.cfg.wf = true :=
  by decide
theorem witness_FeedStoresAHeaderByte :
    (inHeader [0x07, 0x00, 0x02, 0x01, 0x02]).cfg.wf = true ∧
      (inHeader [0x07, 0x00, 0x02, 0x01, 0x02]).rxe.dataLength ≤ (inHeader [0x07, 0x00, 0x02, 0x01, 0x02]).cfg.cap ∧
      (inHeader [0x07, 0x00, 0x02, 0x01, 0x02]).ctx.phase = .awaitingHeader ∧
      (inHeader [0x07, 0x00, 0x02, 0x01, 0x02]).ctx.count + 1 < shdr (inHeader [0x07, 0x00, 0x02, 0x01, 0x02]).cfg :=
  by decide
/-- F5 for the overflow; for the bias test a configuration whose length field counts the whole frame. -/
def inBiasedHeader (lenf : Byte) : State :=
  { inHeader [lenf, 0x00, 0x02, 0x01, 0x02, 0x03] with cfg := { Config.profileT with lenfBias := 6 } }

theorem witness_FeedDecodesTheDeclaredLength :
    (inBiasedHeader 5).cfg.wf = true ∧ (inBiasedHeader 5).rxe.dataLength ≤ (inBiasedHeader 5).cfg.cap ∧
      (inBiasedHeader 5).ctx.phase = .awaitingHeader ∧
      (inBiasedHeader 5).ctx.count + 1 = shdr (inBiasedHeader 5).cfg ∧
      lengthValue (inBiasedHeader 5).cfg (headerWith (inBiasedHeader 5) 0x08) < (inBiasedHeader 5).cfg.lenfBias ∧
      lengthValue (inBiasedHeader 6).cfg (headerWith (inBiasedHeader 6) 0x08) = (inBiasedHeader 6).cfg.lenfBias ∧
      (inBiasedHeader 7).cfg.lenfBias < lengthValue (inBiasedHeader 7).cfg (headerWith (inBiasedHeader 7) 0x08) ∧
      lengthValue (inBiasedHeader 7).cfg (headerWith (inBiasedHeader 7) 0x08) ≤
        (inBiasedHeader 7).cfg.lenfBias + (inBiasedHeader 7).cfg.cap ∧
      lengthValue (inBiasedHeader 38).cfg (headerWith (inBiasedHeader 38) 0x08) =
        (inBiasedHeader 38).cfg.lenfBias + (inBiasedHeader 38).cfg.cap ∧
      (inBiasedHeader 39).cfg.lenfBias + (inBiasedHeader 39).cfg.cap <
        lengthValue (inBiasedHeader 39).cfg (headerWith (inBiasedHeader 39) 0x08) :=
  by decide
theorem witness_FeedStoresAPayloadByte :
    (inF1 0x07 0xD9 7 12).cfg.wf = true ∧ (inF1 0x07 0xD9 7 12).rxe.dataLength ≤ (inF1 0x07 0xD9 7 12).cfg.cap ∧
      (inF1 0x07 0xD9 7 12).ctx.phase = .awaitingPayload ∧
      (inF1 0x07 0xD9 7 12).ctx.declLen ≤ (inF1 0x07 0xD9 7 12).cfg.cap ∧
      shdr (inF1 0x07 0xD9 7 12).cfg ≤ (inF1 0x07 0xD9 7 12).ctx.count ∧
      (inF1 0x07 0xD9 7 12).ctx.count + 1 < shdr (inF1 0x07 0xD9 7 12).cfg + (inF1 0x07 0xD9 7 12).ctx.declLen :=
  by decide
/-- F1's last byte with the right and with a wrong checksum byte in the header, and F2's last byte, a frame without payload. -/
theorem witness_FeedCompletesTheFrame :
    busy.cfg.wf = true ∧ busy.rxe.dataLength ≤ busy.cfg.cap ∧ busy.ctx.consistent busy.cfg = true ∧ FrameEnds busy 0xAA busy.ctx.hdr payloadP1 ∧
      frameCsum busy.cfg (headerFields busy.cfg busy.ctx.hdr) payloadP1 = (headerFields busy.cfg busy.ctx.hdr).checksum ∧
      FrameEnds (inF1 0x07 0xD8 7 13) 0xAA (inF1 0x07 0xD8 7 13).ctx.hdr payloadP1 ∧
      frameCsum busy.cfg (headerFields busy.cfg (inF1 0x07 0xD8 7 13).ctx.hdr) payloadP1 ≠
        (headerFields busy.cfg (inF1 0x07 0xD8 7 13).ctx.hdr).checksum ∧
      FrameEnds (inHeader [0x00, 0x5A, 0x00, 0x00, 0x00, 0x01]) 0x5B
        (headerWith (inHeader [0x00, 0x5A, 0x00, 0x00, 0x00, 0x01]) 0x5B) [] :=
  ⟨by decide, by decide, by decide, .inr (by decide), by decide, .inr (by decide), by decide,
    .inl ⟨rfl, rfl, rfl, by decide, rfl⟩⟩
theorem witness_FeedAdvancesOrZeroes :
    busy.cfg.wf = true ∧ busy.rxe.dataLength ≤ busy.cfg.cap ∧ busy.ctx.consistent busy.cfg = true ∧ State.reset.ctx.consistent State.reset.cfg = true :=
  by decide
theorem witness_FeedWritesTheSlotOnlyOnDelivery :
    ∃ t r, exec (.feed 0xAB) busy = .next t ∧ t.resp = some r ∧ r.ok = false :=
  ⟨_, _, rfl, rfl, rfl⟩
/-- F1. -/
theorem witness_ValidStreamFrameIsDelivered :
    State.reset.cfg.wf = true ∧ State.reset.rxe.dataLength ≤ State.reset.cfg.cap ∧ State.reset.ctx = .zero ∧ payloadP1.length ≤ State.reset.cfg.cap ∧
      frameCsum State.reset.cfg (envP1 0xD9).header payloadP1 = (envP1 0xD9).header.checksum :=
  by decide
theorem witness_BackToBackFramesAreFramedOneByOne :
    State.reset.cfg.wf = true ∧ State.reset.rxe.dataLength ≤ State.reset.cfg.cap ∧ State.reset.ctx = .zero ∧
      (∀ f ∈ [((envP1 0xD9).header, payloadP1), ((envP1 0xD8).header, payloadP1)], f.2.length ≤ State.reset.cfg.cap) ∧
      ([((envP1 0xD9).header, payloadP1), ((envP1 0xD8).header, payloadP1)].filter (goodFrame State.reset.cfg)).getLast? =
        some ((envP1 0xD9).header, payloadP1) ∧
      ([((envP1 0xD8).header, payloadP1)].filter (goodFrame State.reset.cfg)).getLast? = none :=
  by decide
theorem witness_NoCompletionWithinAHeader :
    State.reset.cfg.wf = true ∧ State.reset.rxe.dataLength ≤ State.reset.cfg.cap ∧ State.reset.ctx = .zero ∧ (List.replicate 6 (0 : Byte)).length < shdr State.reset.cfg :=
  by decide
/-- A3, A4 and A10: the shortest and the longest packet, and one accepted without verification. -/
theorem witness_ParseDeliversTheFrame :
    busy.cfg.wf = true ∧ (busy.slot .rxe).dataLength ≤ busy.cfg.cap ∧ 6 ≤ [(0x00 : Byte), 0x02, 0x01, 0x02, 0x03, 0x08].length ∧
      38 ≤ 6 + busy.cfg.cap ∧ (busy.cfg.parseVerify = true →
        frameCsum busy.cfg (headerOf [0x00, 0x02, 0x01, 0x02, 0x03, 0x08])
          (([0x00, 0x02, 0x01, 0x02, 0x03, 0x08].take 6).drop 6) = (headerOf [0x00, 0x02, 0x01, 0x02, 0x03, 0x08]).checksum) ∧
      ({ Config.profileT with parseVerify := false } : Config).parseVerify ≠ true :=
  by decide
/-- A2, A5 and A6. -/
theorem witness_ParseRejectsInOrder :
    busy.cfg.wf = true ∧ (busy.slot .rxe).dataLength ≤ busy.cfg.cap ∧ 5 < 6 ∧ 6 + busy.cfg.cap < 39 ∧
      busy.cfg.parseVerify = true ∧ 6 ≤ [(0x00 : Byte), 0x02, 0x01, 0x02, 0x03, 0x09].length ∧
      frameCsum busy.cfg (headerOf [0x00, 0x02, 0x01, 0x02, 0x03, 0x09])
        (([0x00, 0x02, 0x01, 0x02, 0x03, 0x09].take 6).drop 6) ≠ (headerOf [0x00, 0x02, 0x01, 0x02, 0x03, 0x09]).checksum :=
  by decide
theorem witness_ParseRefusesALengthBeyondItsBuffer :
    busy.cfg.wf = true ∧ (busy.slot .rxe).dataLength ≤ busy.cfg.cap ∧ ([] : List Byte).length < 1 :=
  by decide
theorem witness_SerialisingInvertsParsingAndFraming :
    (withTxe (envP1 0xD9)).cfg.wf = true ∧ ((withTxe (envP1 0xD9)).slot .txe).dataLength ≤ (withTxe (envP1 0xD9)).cfg.cap ∧
      ((withTxe (envP1 0xD9)).slot .rxe).dataLength ≤ (withTxe (envP1 0xD9)).cfg.cap ∧
      ((withTxe (envP1 0xD9)).slot .txe).csum (withTxe (envP1 0xD9)).cfg = ((withTxe (envP1 0xD9)).slot .txe).checksum ∧
      (withTxe (envP1 0xD9)).ctx = .zero ∧
      ∃ t, exec (.parse .rxe [0, 0, 0, 0, 0, 0] 6) busy = .next t ∧ t.resp = some { ok := true } :=
  ⟨by decide, by decide, by decide, by decide, rfl, _, rfl, rfl⟩
theorem witness_ParserAndFramerAgree :
    State.reset.cfg.wf = true ∧ State.reset.cfg.parseVerify = true ∧ State.reset.ctx = .zero ∧
      State.reset.rxe.dataLength ≤ State.reset.cfg.cap ∧ (State.reset.slot .txe).dataLength ≤ State.reset.cfg.cap ∧
      6 ≤ (List.replicate 6 (0 : Byte)).length ∧
      (List.replicate 38 (0 : Byte)).length ≤ 6 + State.reset.cfg.cap :=
  by decide
theorem witness_BuildSucceedsExactlyWhenEntriesFit :
    busy.cfg.wf = true ∧ (busy.slot .txe).dataLength ≤ busy.cfg.cap ∧
      (∀ tv ∈ [(0x10, [(0x02 : Byte), 0x01]), (0x11, [0xAA])], encodable busy.cfg tv) :=
  ⟨by decide, by decide, by simp [encodable]; decide⟩
theorem witness_PayloadlessBuildersAlwaysSucceed :
    busy.cfg.wf = true ∧ (busy.slot .txe).dataLength ≤ busy.cfg.cap ∧ Builder.payloadless .systemResetRequest = true ∧
      Builder.payloadless (.deviceRegistrationRequest none) = true :=
  by decide
/-- An alert request, and raw data of 31 bytes, one more than profile T's 32 bytes hold with their overhead. -/
theorem witness_NamedBuildersFollowTheTable :
    busy.cfg.wf = true ∧ (busy.slot .txe).dataLength ≤ busy.cfg.cap ∧
      (∀ tv ∈ Builder.elements busy.cfg (.alertNotifyRequest (0x10, [0x02, 0x01]) [(0x11, [0xAA])]), encodable busy.cfg tv) ∧
      (∀ tv ∈ Builder.elements busy.cfg (.rawDataSendRequest (List.replicate 31 0xAA)), encodable busy.cfg tv) ∧
      busy.cfg.cap < ovh busy.cfg + (List.replicate 31 (0xAA : Byte)).length :=
  ⟨by decide, by decide, by simp [Builder.elements, encodable]; decide, by
    intro tv h
    rw [Builder.elements, List.mem_singleton] at h
    exact h ▸ ⟨tagFits_toNat _ _, rfl⟩, by decide⟩
/-- Scenario S1, with the spec's stand-in constants. -/
theorem witness_BuiltMessagesParseBack :
    (busy.slot .rxe).dataLength ≤ busy.cfg.cap ∧
      (∃ t, build .txe 0x02 0x0102 0x03 [(0x10, [0x02, 0x01]), (0x11, [0xAA])] busy = .next (true, t)) ∧
      firstValue [(0x10, [(0x02 : Byte), 0x01]), (0x11, [0xAA])] 0x11 = some [0xAA] :=
  ⟨by decide, ⟨_, rfl⟩, rfl⟩

end Sys2Proof.Tests
end

section
/-! SUPPORT. What reset leaves in each part of the state (`10_state.md` R46), and the statement about it. -/

namespace Sys2Proof.Machine

@[simp] theorem State.ctx_resetWith (c : Config) : (State.resetWith c).ctx = .zero := rfl
@[simp] theorem State.iel_resetWith (c : Config) : (State.resetWith c).iel = .zero := rfl
@[simp] theorem State.slot_resetWith (c : Config) (e : Slot) : (State.resetWith c).slot e = .zero := by
  cases e <;> rfl

/-- Settles O5: reset leaves the zero context, the zero list and the zero envelope in both slots, whose fields are zero by
definition and whose buffers read zero at every address. -/
theorem resetZeroesEveryField : Obligations.ResetZeroesEveryField := by
  intro c
  simp only [State.ctx_resetWith, State.iel_resetWith, State.slot_resetWith]
  exact ⟨rfl, rfl, rfl, Memory.get_zero, Memory.get_zero,
    fun _ => ⟨rfl, rfl, rfl, rfl, rfl, rfl, Memory.get_zero⟩, rfl, rfl, rfl⟩

end Sys2Proof.Machine
end

section
/-! SUPPORT. What the decoder answers on each kind of transaction (`30_encoding.md` R108, R118), what a step answers when it
finds no operation, and the statement about both. -/

namespace Sys2Proof

/-- R117: the selectors without a field are 5 to 7. -/
theorem HeaderField.ofSelector_eq_none_iff : ∀ f : BitVec 3, ofSelector f = none ↔ 5 ≤ f.toNat := by
  decide

theorem decode_of_reservedCode {t : Transaction} (h : 0x11 ≤ t.op.toNat) : decode t = .error (.reservedCode t.op) := by
  unfold decode
  split
  case h_18 => rfl
  all_goals omega

theorem decode_of_reservedSelector {t : Transaction} (hop : t.op = 0x04#5) (hf : 5 ≤ t.f.toNat) :
    decode t = .error (.reservedSelector t.f) := by
  simp [decode, hop, (HeaderField.ofSelector_eq_none_iff t.f).mpr hf]

/-- R118: every row of the operation table decodes; only row `0x04` looks at its selector. -/
theorem exists_decode_eq_ok {t : Transaction} (hop : t.op.toNat ≤ 0x10) (hf : t.op = 0x04#5 → t.f.toNat ≤ 4) :
    ∃ i, decode t = .ok i := by
  unfold decode
  split
  case h_5 hx =>
    have hsel := hf (BitVec.eq_of_toNat_eq hx)
    split
    · exact ⟨_, rfl⟩
    case h_2 hnone =>
      have := (HeaderField.ofSelector_eq_none_iff t.f).mp hnone
      omega
  case h_18 => simp only [imp_false] at *; omega
  all_goals exact ⟨_, rfl⟩

theorem exists_decode_eq_ok_iff (t : Transaction) :
    (∃ i, decode t = .ok i) ↔ t.op.toNat ≤ 0x10 ∧ (t.op = 0x04#5 → t.f.toNat ≤ 4) := by
  constructor
  · rintro ⟨i, hi⟩
    constructor
    · by_contra hop
      simp [decode_of_reservedCode (Nat.lt_of_not_le hop)] at hi
    · intro hop
      by_contra hf
      simp [decode_of_reservedSelector hop (Nat.lt_of_not_le hf)] at hi
  · rintro ⟨hop, hf⟩
    exact exists_decode_eq_ok hop hf

namespace Machine

theorem step_of_decode_eq_error {s : State} {t : Transaction} {rest : List Transaction} {why : DecodeError}
    (hport : s.port = t :: rest) (hdec : decode t = .error why) : step s = .refused (refusalOf why) := by
  simp [step, State.fetch, hport, hdec]

/-- Settles O3: the decoder has an operation exactly outside the reserved encodings, and a step answers the decoder's
error with the refusal of the same name. -/
theorem reservedEncodingsAreRefused : Obligations.ReservedEncodingsAreRefused :=
  ⟨exists_decode_eq_ok_iff, fun _ _ _ hport =>
    ⟨fun h => step_of_decode_eq_error hport (decode_of_reservedCode h),
     fun hop hf => step_of_decode_eq_error hport (decode_of_reservedSelector hop hf)⟩⟩

end Machine

end Sys2Proof
end

section
/-! SUPPORT. The checksum and endian operations (`40_checksum_endian.md`): what a byte swap leaves in each half, what each
operation answers on a slot within capacity, and the statements about them. -/

namespace Sys2Proof.Machine

/-! ### Byte order -/

@[simp] theorem hiByte_swapBytes (v : Half) : hiByte (swapBytes v) = loByte v := hiByte_join _ _
@[simp] theorem loByte_swapBytes (v : Half) : loByte (swapBytes v) = hiByte v := loByte_join _ _

@[simp] theorem swapBytes_swapBytes (v : Half) : swapBytes (swapBytes v) = v := by
  rw [swapBytes, loByte_swapBytes, hiByte_swapBytes, joinBytes_hi_lo]

section swap
variable {s : State} (hw : s.cfg.wf = true) (v : Half)
include hw

theorem exec_h2n16_of_wf : exec (.h2n16 v) s = .next { s with resp := some { ok := true, r := some (swapBytes v) } } :=
  execH2N16_next.2 ⟨hw, rfl⟩

theorem exec_n2h16_of_wf : exec (.n2h16 v) s = .next { s with resp := some { ok := true, r := some (swapBytes v) } } :=
  execN2H16_next.2 ⟨hw, rfl⟩

theorem exec_h2n16_swapBytes : exec (.h2n16 (swapBytes v)) s = .next { s with resp := some { ok := true, r := some v } } := by
  rw [exec_h2n16_of_wf hw, swapBytes_swapBytes]

theorem exec_n2h16_swapBytes : exec (.n2h16 (swapBytes v)) s = .next { s with resp := some { ok := true, r := some v } } := by
  rw [exec_n2h16_of_wf hw, swapBytes_swapBytes]

end swap

/-- Settles O17: the result is the byte swap, whose high byte is the operand's low byte and whose low byte is its high byte. -/
theorem endianOperationsSwapBytes : Obligations.EndianOperationsSwapBytes := fun _ v hw =>
  ⟨swapBytes v, hiByte_swapBytes v, loByte_swapBytes v, exec_h2n16_of_wf hw v, exec_n2h16_of_wf hw v⟩

/-- Settles O18: both operations are the byte swap, which undoes itself. -/
theorem endianOperationsAreInvolutions : Obligations.EndianOperationsAreInvolutions := fun _ x hw =>
  ⟨swapBytes x, _, rfl, exec_h2n16_of_wf hw x, exec_n2h16_of_wf hw x, exec_h2n16_swapBytes hw x,
    exec_n2h16_swapBytes hw x⟩

/-! ### Checksum -/

/-- The checksum field is no input of `CSUM` (R134). -/
@[simp] theorem Envelope.csum_checksum (c : Config) (v : Envelope) (k : Byte) :
    Envelope.csum c { v with checksum := k } = v.csum c := rfl

/-- The state after `CKS.SEAL e` (R140). -/
def State.sealed (s : State) (e : Slot) : State :=
  { s.withSlot e { s.slot e with checksum := (s.slot e).csum s.cfg } with resp := some { ok := true } }

section checksum
variable {s : State} {e : Slot} (hw : s.cfg.wf = true) (hl : (s.slot e).dataLength ≤ s.cfg.cap)
include hw hl

theorem exec_cksVfy_of_eq (h : (s.slot e).csum s.cfg = (s.slot e).checksum) :
    exec (.cksVfy e) s = .next { s with resp := some { ok := true } } :=
  execCksVfy_next.2 ⟨hw, hl, if_pos h⟩

theorem exec_cksVfy_of_ne (h : (s.slot e).csum s.cfg ≠ (s.slot e).checksum) :
    exec (.cksVfy e) s = .next { s with resp := some { ok := false, cause := some .csumMismatch } } :=
  execCksVfy_next.2 ⟨hw, hl, if_neg h⟩

theorem exec_cksSeal : exec (.cksSeal e) s = .next (s.sealed e) :=
  execCksSeal_next.2 ⟨hw, hl, rfl⟩

end checksum

section sealed
variable (s : State) (e : Slot)

@[simp] theorem State.sealed_cfg : (s.sealed e).cfg = s.cfg := by simp [State.sealed]

@[simp] theorem State.slot_sealed :
    (s.sealed e).slot e = { s.slot e with checksum := (s.slot e).csum s.cfg } := by simp [State.sealed]

theorem keepsAllButSlot_sealed : keepsAllButSlot e s (s.sealed e) := by
  refine ⟨by simp, by simp [State.sealed], by simp [State.sealed], by simp [State.sealed], fun d hd => ?_, fun d => ?_⟩
  · simp [State.sealed, State.slot_withSlot_ne _ _ _ hd]
  · simp [State.sealed]

/-- Sealing is idempotent (R140), because `CSUM` does not read the field that it writes. -/
@[simp] theorem State.sealed_sealed : (s.sealed e).sealed e = s.sealed e := by
  cases e <;> rfl

end sealed

/-- Settles O19: `CKS.CALC` goes on with the payload of a slot within capacity, and answers its checksum. -/
theorem calcReturnsTheChecksum : Obligations.CalcReturnsTheChecksum := fun _ _ hw hl =>
  execCksCalc_next.2 ⟨hw, hl, rfl⟩

/-- Settles O20: the two outcomes of the comparison. -/
theorem verifyComparesTheChecksum : Obligations.VerifyComparesTheChecksum := fun _ _ hw hl =>
  ⟨exec_cksVfy_of_eq hw hl, exec_cksVfy_of_ne hw hl⟩

/-- Settles O21: the sealed slot's checksum field is `CSUM` of the slot as it was, which is `CSUM` of the sealed slot too. -/
theorem sealStoresTheChecksum : Obligations.SealStoresTheChecksum := by
  intro s e hw hl
  refine ⟨s.sealed e, exec_cksSeal hw hl, rfl, keepsAllButSlot_sealed s e, State.slot_sealed s e, ?_, ?_⟩
  · intro u hcfg hslot
    rw [State.sealed_cfg] at hcfg
    rw [State.slot_sealed] at hslot
    refine exec_cksVfy_of_eq (by rwa [hcfg]) (by rwa [hcfg, hslot]) ?_
    rw [hcfg, hslot, Envelope.csum_checksum]
  · rw [exec_cksSeal (by simpa using hw) (by simpa using hl), State.sealed_sealed]

/-- Settles O22: another checksum byte leaves `CSUM` of the slot as it was, so that the comparison fails. -/
theorem checksumByteChangesAreDetected : Obligations.ChecksumByteChangesAreDetected := by
  intro s e k hw hl heq hk
  refine ⟨exec_cksVfy_of_eq hw hl heq, exec_cksVfy_of_ne (by simpa using hw) (by simpa using hl) ?_⟩
  rw [State.withSlot_cfg, State.slot_withSlot, Envelope.csum_checksum, heq]
  exact hk.symm

end Sys2Proof.Machine
end

section
/-! SUPPORT. The Information-Element codec (`41_ie_codec.md`): what `IE.NEW`, `IE.ADD` and `IE.GET` answer where their
preconditions hold, what a list's building leaves in its slot, and the statements about them. -/

namespace Sys2Proof.Machine

/-! ### IE.NEW -/

theorem exec_ieNew_beyond {s : State} {e : Slot} {n : Nat} (hw : s.cfg.wf = true) (hl : (s.slot e).dataLength ≤ s.cfg.cap)
    (hn : s.cfg.cap < n) : exec (.ieNew e n) s = .refused .capacityBeyondBuffer := by
  simp [exec, execIeNew, requireAll_cons, State.configOk, State.slotOk, Envelope.fits, hw, hl, Nat.not_le.mpr hn]

/-- Settles O25: `IE.NEW` goes on exactly with a capacity that the slot has, which is the last of its preconditions. -/
theorem newListIsEmpty : Obligations.NewListIsEmpty := fun _ _ _ hw hl =>
  ⟨fun hn => execIeNew_next.2 ⟨hw, hl, hn, rfl⟩, exec_ieNew_beyond hw hl⟩

/-! ### IE.ADD -/

section add
variable {s : State} {tag n : Nat} {ibuf : List Byte} (hr : AddReady s tag ibuf n)
include hr

/-- The capacity test of R151 passes. -/
theorem exec_ieAdd_of_fits (hfit : s.iel.size + ovh s.cfg + n ≤ s.iel.cap) :
    exec (.ieAdd tag ibuf n) s = .next (s.appended tag (ibuf.take n)) :=
  execIeAdd_next.2 ⟨hr, if_neg (Nat.not_lt.mpr hfit)⟩

/-- The capacity test of R151 fails. -/
theorem exec_ieAdd_of_full (hfull : s.iel.cap < s.iel.size + ovh s.cfg + n) :
    exec (.ieAdd tag ibuf n) s = .next { s with resp := some { ok := false, cause := some .ieCapacity } } :=
  execIeAdd_next.2 ⟨hr, if_pos hfull⟩

theorem exec_ieAdd_ok_iff :
    (∃ t, exec (.ieAdd tag ibuf n) s = .next t ∧ t.resp = some { ok := true }) ↔
      s.iel.size + ovh s.cfg + n ≤ s.iel.cap := by
  constructor
  · rintro ⟨t, ht, hok⟩
    by_contra hfit
    rw [exec_ieAdd_of_full hr (Nat.lt_of_not_le hfit)] at ht
    cases ht
    simp at hok
  · exact fun hfit => ⟨_, exec_ieAdd_of_fits hr hfit, rfl⟩

end add

section appendedData
variable (s : State) (tag : Nat) (value : List Byte)

/-- The entry stands at the end of the list as it was (R152). -/
theorem State.getRange_appended :
    ((s.appended tag value).slot s.iel.slot).data.getRange s.iel.size (ovh s.cfg + value.length) =
      tlvBytes s.cfg tag value := by
  rw [State.slot_appended, ← length_tlvBytes s.cfg tag value, Memory.getRange_setRange]

/-- Every byte outside the entry is as it was (R152). -/
theorem State.get_appended_outside {a : Nat} (ha : a < s.iel.size ∨ s.iel.size + ovh s.cfg + value.length ≤ a) :
    ((s.appended tag value).slot s.iel.slot).data.get a = (s.slot s.iel.slot).data.get a := by
  rw [State.slot_appended]
  exact Memory.get_setRange_outside _ _ (by rw [length_tlvBytes]; omega)

end appendedData

/-- Settles O26: the state after an addition that fits is the appended one, whose entry, other bytes and other fields are
read off one by one. -/
theorem addAppendsOneEntry : Obligations.AddAppendsOneEntry := by
  rintro s tag ibuf _ hw hcap hl htag hlen rfl hfit
  have hr : AddReady s tag ibuf ibuf.length := ⟨hw, by omega, hcap, hl, htag, hlen, le_refl _⟩
  have hexec := exec_ieAdd_of_fits hr hfit
  rw [List.take_length] at hexec
  exact ⟨s.appended tag ibuf, hexec, rfl, rfl, s.getRange_appended tag ibuf,
    fun _ ha => s.get_appended_outside tag ibuf ha, by rw [State.slot_appended]; rfl, by rw [State.slot_appended],
    s.appended_cfg tag ibuf, s.appended_ctx tag ibuf, s.appended_port tag ibuf,
    fun _ hd => s.slot_appended_ne tag ibuf hd, s.draws_appended tag ibuf⟩

/-- Settles O27: the remaining capacity `cap - size` is exact because the list keeps `size ≤ cap`, so that the test of R151
is the comparison of R153. -/
theorem addSucceedsExactlyWhenItFits : Obligations.AddSucceedsExactlyWhenItFits := by
  intro s tag ibuf n hw hsize hcap hl htag hlen hn
  have hr : AddReady s tag ibuf n := ⟨hw, hsize, hcap, hl, htag, hlen, hn.ge⟩
  refine ⟨(exec_ieAdd_ok_iff hr).trans (by omega), fun hexact => ?_, fun hfull => exec_ieAdd_of_full hr (by omega)⟩
  refine ⟨_, exec_ieAdd_of_fits hr (by omega), rfl, ?_⟩
  rw [State.appended_iel, List.length_take_of_le hn.ge]
  dsimp only
  omega

/-! ### IE.GET -/

theorem exec_ieGet {s : State} {e : Slot} {tag : Nat} (n : Nat) (hw : s.cfg.wf = true)
    (hl : (s.slot e).dataLength ≤ s.cfg.cap) (htag : s.cfg.tagFits tag = true) :
    exec (.ieGet e tag n) s = .next { s with resp := some (getResponse s.cfg (s.slot e).payload tag n) } :=
  execIeGet_next.2 ⟨hw, hl, htag, rfl⟩

/-- The first entry with the tag decides (R157). -/
theorem getResponse_first {c : Config} (hw : c.wf = true) {ies : List (Nat × List Byte)} {tag n : Nat} {v post : List Byte}
    (hies : ∀ tv ∈ ies, encodable c tv ∧ tv.1 ≠ tag) (he : encodable c (tag, v)) :
    getResponse c (listBytes c ies ++ (tlvBytes c tag v ++ post)) tag n =
      if v.length = n then { ok := true, obuf := some v, olen := some n } else { ok := false, cause := some .ieAbsent } := by
  rw [getResponse, ieFind_first ies tag v post n (ovh_pos hw) hies he]
  by_cases hv : v.length = n
  · simp [hv]
  · simp [hv, Response.rejected]

/-- The output operand is written on `ok = 1` only, and then `n` bytes of it (R160). -/
theorem getResponse_output (c : Config) (payload : List Byte) (tag n : Nat) :
    (getResponse c payload tag n).r = none ∧
      ((getResponse c payload tag n).ok = true → ∃ v, (getResponse c payload tag n).obuf = some v ∧ v.length = n ∧
        (getResponse c payload tag n).olen = some n) ∧
      ((getResponse c payload tag n).ok = false →
        (getResponse c payload tag n).obuf = none ∧ (getResponse c payload tag n).olen = none) := by
  unfold getResponse
  cases hfind : ieFind c payload tag n (ieFuel c payload) 0 with
  | some v => simp [ieFind_length hfind]
  | none => simp [Response.rejected]

/-- Settles O31: the scan passes the entries of other tags and ends at the first with the tag. -/
theorem getReturnsTheFirstMatch : Obligations.GetReturnsTheFirstMatch := by
  intro s e tag n ies v post hw hl hies he hpayload
  rw [exec_ieGet n hw hl he.1, hpayload, getResponse_first hw hies he]

/-- Settles O33: the response that `IE.GET` drives is the only thing it writes, and the scan finds values of `n` bytes only. -/
theorem getWritesOnlyItsOutput : Obligations.GetWritesOnlyItsOutput := fun s e tag n hw hl htag =>
  ⟨getResponse s.cfg (s.slot e).payload tag n, exec_ieGet n hw hl htag, getResponse_output s.cfg (s.slot e).payload tag n⟩

/-! ### A list built and read back -/

/-- The slot of a built list: the elements could all be encoded, and the payload is their entries, in order. -/
structure BuiltList (ies : List (Nat × List Byte)) (e : Slot) (t : State) : Prop where
  config : t.cfg.wf = true
  slot : (t.slot e).dataLength ≤ t.cfg.cap
  elements : ∀ tv ∈ ies, encodable t.cfg tv
  payload : (t.slot e).payload = listBytes t.cfg ies

/-- `ENV.SETLEN` makes the bytes of the list the payload of its slot (R176). -/
theorem exec_envSetLen_payload {s t : State} (h : exec .envSetLen s = .next t) :
    s.cfg.wf = true ∧ t.cfg = s.cfg ∧ (t.slot s.iel.slot).dataLength ≤ s.cfg.cap ∧
      (t.slot s.iel.slot).payload = (s.slot s.iel.slot).data.getRange 0 s.iel.size := by
  obtain ⟨hw, ⟨hsize, hcap⟩, -, rfl⟩ := execEnvSetLen_next.1 h
  refine ⟨hw, State.withSlot_cfg _ _ _, ?_, ?_⟩
  · simpa using hsize.trans hcap
  · simp [Envelope.payload]

/-- Additions that all succeed on an empty list, and `ENV.SETLEN` after them, build the list of their elements (R152, R176).
The induction on the number of additions is `runAll_adds`. -/
theorem builtList_of_runAll {ies : List (Nat × List Byte)} {s t : State} {oks : List Bool} (hempty : s.iel.size = 0)
    (hrun : runAll (ies.map addElement ++ [.envSetLen]) s = .next (oks, t)) (hok : ∀ b ∈ oks, b = true) :
    BuiltList ies s.iel.slot t := by
  obtain ⟨u, oks1, oks2, hadds, hlast, rfl⟩ := runAll_append_next hrun
  obtain ⟨happ, helems⟩ := runAll_adds hadds fun b hb => hok b (List.mem_append_left _ hb)
  obtain ⟨t', _, hset, hend, -⟩ := runAll_cons_next hlast
  cases hend
  have hslot : u.iel.slot = s.iel.slot := by rw [happ.list]
  obtain ⟨hw, hcfg, hlen, hpayload⟩ := exec_envSetLen_payload hset
  rw [hslot] at hlen hpayload
  have hdata := happ.data
  rw [hempty, Memory.getRange_zero, List.nil_append] at hdata
  have hts : t.cfg = s.cfg := hcfg.trans happ.cfg
  exact ⟨hcfg ▸ hw, hcfg ▸ hlen, hts ▸ helems, by rw [hpayload, hdata, hts]⟩

/-- `IE.GET` on a built list (R162). -/
theorem exec_ieGet_builtList {ies : List (Nat × List Byte)} {e : Slot} {t : State} (hb : BuiltList ies e t) {tag : Nat}
    (n : Nat) (htag : t.cfg.tagFits tag = true) :
    exec (.ieGet e tag n) t = .next { t with resp := some (getResponse t.cfg (listBytes t.cfg ies) tag n) } := by
  rw [exec_ieGet n hb.config hb.slot htag, hb.payload]

theorem mem_of_firstValue_some {ies : List (Nat × List Byte)} {tag : Nat} {v : List Byte} (h : firstValue ies tag = some v) :
    (tag, v) ∈ ies := by
  obtain ⟨pre, post, rfl, -⟩ := firstValue_some h
  simp

/-- Settles O34: `IE.NEW` empties the list, the additions and `ENV.SETLEN` leave exactly the elements' entries as the
payload, and the scan over whole entries finds the first of each tag. -/
theorem listsReadBackAsBuilt : Obligations.ListsReadBackAsBuilt := by
  intro s t e n ies oks hrun hok
  obtain ⟨s1, oks', hnew, hrest, rfl⟩ := runAll_cons_next hrun
  obtain ⟨-, -, -, rfl⟩ := execIeNew_next.1 hnew
  have hb : BuiltList ies e t := builtList_of_runAll rfl hrest fun b hb => hok b (List.mem_cons_of_mem _ hb)
  obtain ⟨hfound, habsent⟩ := getResponse_list hb.config hb.elements
  constructor
  · intro tag v hv
    obtain ⟨htag, -⟩ := hb.elements _ (mem_of_firstValue_some hv)
    rw [exec_ieGet_builtList hb v.length htag, hfound tag v hv]
  · intro tag m hnone htag
    rw [exec_ieGet_builtList hb m htag, habsent tag m hnone]

end Sys2Proof.Machine
end

section
/-! SUPPORT. The envelope unit and the serialiser (`42_envelope.md`): what each operation answers on a slot within capacity,
what serialising leaves for the parser and the framer to read, and the statements about them. -/

namespace Sys2Proof.Machine

/-- Writing one slot and driving the output lines leaves the rest of the block as it was. -/
theorem keepsAllButSlot_withSlot (s : State) (e : Slot) (v : Envelope) (r : Option Response) :
    keepsAllButSlot e s { s.withSlot e v with resp := r } := by
  refine ⟨by simp, by simp, by simp, by simp, fun d hd => ?_, fun d => by simp⟩
  rw [State.slot_mk, State.slot_withSlot_ne _ _ _ hd]

/-! ### ENV.CLR, ENV.SET, ENV.SETLEN -/

/-- R174, field by field: the field that the selector names takes its part of `v`, and every other one stays. -/
theorem Envelope.setField_eq (x : Envelope) (f : HeaderField) (v : Half) :
    x.setField f v = { x with
      cookie := if f = .cookie then loByte v else x.cookie
      unitId := if f = .unitId then loByte v else x.unitId
      serviceId := if f = .serviceId then v else x.serviceId
      messageId := if f = .messageId then loByte v else x.messageId
      checksum := if f = .checksum then loByte v else x.checksum } := by
  cases f <;> rfl

/-- Settles O35: the slot becomes the zero envelope, whose buffer reads zero at every address. -/
theorem clearZeroesTheSlot : Obligations.ClearZeroesTheSlot := by
  intro s e hw hl
  refine ⟨_, execEnvClr_next.2 ⟨hw, hl, rfl⟩, rfl, keepsAllButSlot_withSlot s e .zero _, ?_⟩
  rw [State.slot_mk, State.slot_withSlot]
  exact ⟨rfl, rfl, rfl, rfl, rfl, rfl, Memory.get_zero⟩

/-- Settles O36: the eight selectors one by one, and the one field that `Envelope.setField` changes. -/
theorem setWritesOneHeaderField : Obligations.SetWritesOneHeaderField := by
  refine ⟨by decide, fun s e f v hw hl => ?_⟩
  refine ⟨_, execEnvSet_next.2 ⟨hw, hl, rfl⟩, rfl, keepsAllButSlot_withSlot s e _ _, ?_⟩
  rw [State.slot_mk, State.slot_withSlot, Envelope.setField_eq]
  exact ⟨rfl, rfl, rfl, rfl, rfl, rfl, rfl⟩

/-- Settles O37: the slot that the list is rooted at takes the list's size and keeps the rest. -/
theorem setLengthCopiesTheListSize : Obligations.SetLengthCopiesTheListSize := by
  intro s hw hsize hcap hl
  refine ⟨_, execEnvSetLen_next.2 ⟨hw, ⟨hsize, hcap⟩, hl, rfl⟩, rfl, keepsAllButSlot_withSlot s s.iel.slot _ _, ?_⟩
  rw [State.slot_mk, State.slot_withSlot]

/-! ### SER, SERS -/

section serialise
variable {s : State} {e : Slot} (hw : s.cfg.wf = true) (hl : (s.slot e).dataLength ≤ s.cfg.cap)
include hw hl

theorem exec_ser :
    exec (.ser e) s = .next { s with resp := some (.buffer (frameBytes (s.slot e).header (s.slot e).payload)) } :=
  execSer_next.2 ⟨hw, hl, rfl⟩

theorem exec_sers :
    exec (.sers e) s = .next { s with resp := some (.buffer (streamBytes s.cfg (s.slot e).header (s.slot e).payload)) } :=
  execSers_next.2 ⟨hw, hl, rfl⟩

/-- Serialising a slot that holds a decoded frame gives that frame (R180). -/
theorem exec_ser_of_holds {h : Header} {p : List Byte} (hh : (s.slot e).holds h p) :
    exec (.ser e) s = .next { s with resp := some (.buffer (frameBytes h p)) } := by
  obtain ⟨hheader, -, hpayload⟩ := hh
  rw [exec_ser hw hl, hheader, hpayload]

end serialise

/-- Settles O38: the frame of a slot is its header bytes and its payload. -/
theorem serialiseEmitsTheFrame : Obligations.SerialiseEmitsTheFrame := by
  intro s e hw hl
  rw [exec_ser hw hl, buffer_eq, length_frameBytes, Envelope.length_payload]
  rfl

/-- Settles O39: the length field has `LENF_W` bytes, which a legal length with its bias fits into (R11), and the frame
behind it is that of `SER`. -/
theorem serialiseStreamEmitsTheStreamFrame : Obligations.SerialiseStreamEmitsTheStreamFrame := by
  intro s e hw hl
  refine ⟨beBytes s.cfg.lenfW ((s.slot e).dataLength + s.cfg.lenfBias), frameBytes (s.slot e).header (s.slot e).payload,
    length_beBytes _ _, beVal_lengthField hw hl, serialiseEmitsTheFrame s e hw hl, ?_⟩
  rw [exec_sers hw hl, buffer_eq, length_streamBytes, streamBytes, Envelope.length_payload]

/-! ### The inverse laws (R184) -/

/-- A packet that `PARSE` accepts has its header at least, and the slot then holds it, within capacity (R221 to R225). -/
theorem parsed_holds_of_ok {s : State} {d : Slot} {packet : List Byte}
    (hok : (s.parsed d packet).resp = some { ok := true }) :
    hdrLen ≤ packet.length ∧ (s.parsed d packet).cfg = s.cfg ∧ ((s.parsed d packet).slot d).dataLength ≤ s.cfg.cap ∧
      ((s.parsed d packet).slot d).holds (headerOf packet) (packet.drop hdrLen) := by
  rcases parsed_cases s.cfg packet with ⟨cause, -, hrej⟩ | ⟨hmin, hmax, -, hdel⟩
  · rw [hrej s d rfl] at hok
    simp at hok
  · rw [hdel s d rfl, State.slot_mk, State.slot_delivered]
    exact ⟨hmin, State.delivered_cfg _ _ _ _, by simpa [deliveredEnvelope] using hmax, deliveredEnvelope_holds _ _ _ _⟩

/-- A slot that verifies, serialised and parsed, is reproduced (R184). -/
theorem exec_parse_ser {s : State} {e d : Slot} (hw : s.cfg.wf = true) (hle : (s.slot e).dataLength ≤ s.cfg.cap)
    (hld : (s.slot d).dataLength ≤ s.cfg.cap) (hc : (s.slot e).csum s.cfg = (s.slot e).checksum) :
    ∃ frame t u, exec (.ser e) s = .next t ∧
      t.resp = some { ok := true, obuf := some frame, olen := some frame.length } ∧
      exec (.parse d frame frame.length) t = .next u ∧ u.resp = some { ok := true } ∧ (u.slot d).equiv (s.slot e) := by
  set t : State := { s with resp := some (.buffer (frameBytes (s.slot e).header (s.slot e).payload)) }
  obtain ⟨u, hparse, hresp, hholds, -⟩ := execParse_frame (s := t) (e := d) hw (by simpa [t] using hld) rfl
    ((Envelope.length_payload _).trans_le hle) ((frameCsum_header _ _).trans hc)
  exact ⟨_, t, u, exec_ser hw hle, rfl, hparse, hresp, Envelope.equiv_of_holds hholds (Envelope.holds_self _)⟩

/-- A slot that verifies, serialised as a stream frame and fed from a zero context, is reproduced in `RXE` (R184).
The induction over the bytes is `feedAll_frame`. -/
theorem feedAll_sers {s : State} {e : Slot} (hw : s.cfg.wf = true) (hle : (s.slot e).dataLength ≤ s.cfg.cap)
    (hrx : s.rxe.dataLength ≤ s.cfg.cap) (hz : s.ctx = .zero) (hc : (s.slot e).csum s.cfg = (s.slot e).checksum) :
    ∃ bytes t u, exec (.sers e) s = .next t ∧
      t.resp = some { ok := true, obuf := some bytes, olen := some bytes.length } ∧
      feedAll bytes t = .next (List.replicate (bytes.length - 1) false ++ [true], u) ∧ u.rxe.equiv (s.slot e) := by
  set f : Header × List Byte := ((s.slot e).header, (s.slot e).payload)
  set t : State := { s with resp := some (.buffer (streamBytes s.cfg f.1 f.2)) }
  have hgood : goodFrame t.cfg f = true := decide_eq_true hc
  have hfeed : feedAll (streamBytes s.cfg f.1 f.2) t = _ := feedAll_frame (s := t) ⟨hw, hrx⟩ hz f (by simpa [f] using hle)
  rw [hgood, ← length_streamBytes _ f.1] at hfeed
  exact ⟨_, t, t.framed f, exec_sers hw hle, rfl, hfeed,
    Envelope.equiv_of_holds (framed_holds hgood) (Envelope.holds_self _)⟩

/-- A packet that `PARSE` accepts is serialised back byte for byte (R184). -/
theorem exec_ser_parse {s t : State} {d : Slot} {ibuf : List Byte} {n : Nat} (hparse : exec (.parse d ibuf n) s = .next t)
    (hok : t.resp = some { ok := true }) :
    exec (.ser d) t = .next { t with resp := some { ok := true, obuf := some (ibuf.take n), olen := some n } } := by
  obtain ⟨hw, -, hn, rfl⟩ := execParse_next.1 hparse
  obtain ⟨hmin, hcfg, hcap, hholds⟩ := parsed_holds_of_ok hok
  rw [exec_ser_of_holds (hcfg ▸ hw) (hcfg ▸ hcap) hholds, frameBytes_headerOf hmin, buffer_eq, List.length_take_of_le hn]

/-- Settles O53: the three inverse laws. -/
theorem serialisingInvertsParsingAndFraming : Obligations.SerialisingInvertsParsingAndFraming :=
  ⟨fun _ _ _ => exec_parse_ser, fun _ _ => feedAll_sers, fun _ _ _ _ _ => exec_ser_parse⟩

end Sys2Proof.Machine
end

section
/-! SUPPORT. The incremental framer (`43_framer.md`): what `FEED` answers at the last byte of a frame, what it writes on each
of its effects, and the statements about `CTX.INIT` and `FEED`. -/

namespace Sys2Proof.Machine

/-- Settles O40: `CTX.INIT` has no precondition beside the configuration. -/
theorem initZeroesTheContext : Obligations.InitZeroesTheContext := fun _ hw =>
  execCtxInit_next.2 ⟨hw, rfl⟩

/-! ### Header bytes -/

theorem get_headerWith (s : State) (b : Byte) (a : Nat) :
    (headerWith s b).get a = if a = s.ctx.count then b else s.ctx.hdr.get a :=
  Memory.get_set _ _ _ _

theorem exec_feed_headerByte {s : State} (b : Byte) (hw : s.feedReady) (hp : s.ctx.phase = .awaitingHeader)
    (hc : s.ctx.count + 1 < shdr s.cfg) :
    exec (.feed b) s = .next { s with
      ctx := { s.ctx with hdr := headerWith s b, count := s.ctx.count + 1 }, resp := some { ok := false } } :=
  (execFeed_header b hw hp (Nat.lt_of_succ_lt hc)).trans (feedHeader_mid hc)

/-- Settles O41: the buffered header becomes `headerWith s b`. -/
theorem feedStoresAHeaderByte : Obligations.FeedStoresAHeaderByte := fun s b hw hr hp hc =>
  ⟨headerWith s b, exec_feed_headerByte b ⟨hw, hr⟩ hp hc, get_headerWith s b⟩

/-! ### The last byte of a frame -/

section framed
variable {s : State} {f : Header × List Byte}

theorem State.framed_of_good (h : frameCsum s.cfg f.1 f.2 = f.1.checksum) :
    s.framed f = { s.delivered .rxe f.1 f.2 with ctx := .zero, resp := some { ok := true } } :=
  if_pos (decide_eq_true h)

theorem State.framed_of_bad (h : frameCsum s.cfg f.1 f.2 ≠ f.1.checksum) :
    s.framed f = { s with ctx := .zero, resp := some { ok := false, cause := some .csumMismatch } } :=
  if_neg (by simpa [goodFrame] using h)

@[simp] theorem State.framed_txDraws : (s.framed f).txDraws = s.txDraws := by
  unfold State.framed; split <;> rfl

@[simp] theorem State.framed_port : (s.framed f).port = s.port := by
  unfold State.framed; split <;> rfl

end framed

/-- `ok` at the last byte of a frame is the checksum test (R199, R200). -/
theorem exists_resp_framed (s : State) (f : Header × List Byte) :
    ∃ r, (s.framed f).resp = some r ∧ (r.ok = true ↔ frameCsum s.cfg f.1 f.2 = f.1.checksum) := by
  by_cases h : frameCsum s.cfg f.1 f.2 = f.1.checksum
  · exact ⟨{ ok := true }, by rw [State.framed_of_good h], by simp [h]⟩
  · exact ⟨{ ok := false, cause := some .csumMismatch }, by rw [State.framed_of_bad h], by simp [h]⟩

/-- Settles O44: a frame's last byte leaves `State.framed`, in its two cases. -/
theorem feedCompletesTheFrame : Obligations.FeedCompletesTheFrame := by
  intro s b hdr payload hw hr hcons hends
  have hfeed : exec (.feed b) s = .next (s.framed (headerFields s.cfg hdr, payload)) := execFeed_framed ⟨hw, hr⟩ hcons hends
  refine ⟨fun hbad => by rw [hfeed, State.framed_of_bad hbad], fun hgood => ⟨_, hfeed, ?_⟩⟩
  exact ⟨by rw [State.framed_of_good hgood], by simp, framed_holds (decide_eq_true hgood), by simp, by simp, by simp, by simp,
    by simp⟩

/-- Settles O42: with a declared length other than 0 no frame ends at the last header byte, and with length 0 one does. -/
theorem feedDecodesTheDeclaredLength : Obligations.FeedDecodesTheDeclaredLength := by
  intro s b hw hr hp hc
  obtain ⟨hunder, hover, hdeclared⟩ := execFeed_headerDone (b := b) ⟨hw, hr⟩ hp hc
  refine ⟨hunder, hover, hc ▸ hdeclared, fun hempty => ?_⟩
  have hcons : s.ctx.consistent s.cfg = true := consistent_iff.2 (.inl ⟨hp, by omega⟩)
  have hends : FrameEnds s b (headerWith s b) [] := .inl ⟨hp, hc, rfl, hempty, rfl⟩
  obtain ⟨r, hresp, hok⟩ := exists_resp_framed s (headerFields s.cfg (headerWith s b), [])
  exact ⟨_, r, execFeed_framed ⟨hw, hr⟩ hcons hends, hresp, State.framed_ctx _ _, hok,
    fun h => framed_holds (decide_eq_true (hok.1 h))⟩

/-! ### What `FEED` leaves alone -/

/-- The transmit side is in no effect of `FEED` (R203). -/
theorem FeedEffect.keeps_transmit {s t : State} {b : Byte} (h : FeedEffect s b t) :
    t.txe = s.txe ∧ t.txDraws = s.txDraws ∧ t.iel = s.iel := by
  cases h with
  | delivered => simp
  | headerByte | rejected | declared | payloadByte => exact ⟨rfl, rfl, rfl⟩

/-- Every effect of `FEED` but the delivery leaves `RXE` (R203). -/
theorem FeedEffect.keeps_rxe {s t : State} {b : Byte} (h : FeedEffect s b t) (hok : t.okLine = false) :
    t.rxe = s.rxe ∧ t.rxDraws = s.rxDraws := by
  cases h with
  | delivered => simp [State.okLine] at hok
  | headerByte | rejected | declared | payloadByte => exact ⟨rfl, rfl⟩

/-- Settles O46: an `ok` of 0 tells every other effect from the delivery. -/
theorem feedWritesTheSlotOnlyOnDelivery : Obligations.FeedWritesTheSlotOnlyOnDelivery := by
  intro s t b r h hresp
  obtain ⟨-, -, heffect⟩ := execFeed_next h
  exact ⟨fun hok => heffect.keeps_rxe (by simp [State.okLine, hresp, hok]), heffect.keeps_transmit⟩

/-! ### A whole stream frame -/

/-- The stream frame byte by byte (R92, R95, R96). -/
theorem streamBytes_eq (c : Config) (h : Header) (p : List Byte) :
    streamBytes c h p = beBytes c.lenfW (p.length + c.lenfBias) ++
      [h.cookie, h.unitId, h.serviceId.extractLsb' 8 8, h.serviceId.extractLsb' 0 8, h.messageId, h.checksum] ++ p :=
  (List.append_assoc _ _ _).symm

/-- Settles O47: the frame's last byte answers the checksum test, which it passes, and delivers the frame.
The induction over the bytes is `feedAll_frame`. -/
theorem validStreamFrameIsDelivered : Obligations.ValidStreamFrameIsDelivered := by
  intro s h p hw hr hz hl hcsum
  have hgood : goodFrame s.cfg (h, p) = true := decide_eq_true hcsum
  have hfeed := feedAll_frame ⟨hw, hr⟩ hz (h, p) hl
  rw [hgood, streamBytes_eq] at hfeed
  exact ⟨_, hfeed, by simp, framed_holds hgood, by simp, by simp, by simp⟩

end Sys2Proof.Machine
end

section
/-! SUPPORT. The one-shot parser (`44_parser.md`): the state that `PARSE` leaves in each case of its tests (R227), what a
delivered header gives each field, and the statements about `PARSE`. -/

namespace Sys2Proof.Machine

/-! ### The tests in their order -/

section parsed
variable {s : State} {e : Slot} {packet : List Byte}

theorem State.parsed_of_undersize (h : packet.length < hdrLen) :
    s.parsed e packet = { s with resp := some { ok := false, cause := some .undersize } } :=
  if_pos h

theorem State.parsed_of_overflow (h : hdrLen + s.cfg.cap < packet.length) :
    s.parsed e packet = { s with resp := some { ok := false, cause := some .lenOverflow } } := by
  rw [State.parsed, if_neg (by omega), if_pos (by omega)]

section legal
variable (hmin : hdrLen ≤ packet.length) (hmax : packet.length ≤ hdrLen + s.cfg.cap)
include hmin hmax

theorem State.parsed_of_mismatch (hv : s.cfg.parseVerify = true)
    (hbad : frameCsum s.cfg (headerOf packet) (packet.drop hdrLen) ≠ (headerOf packet).checksum) :
    s.parsed e packet = { s with resp := some { ok := false, cause := some .csumMismatch } } := by
  rw [State.parsed, if_neg (by omega), if_neg (by omega), if_pos ⟨hv, hbad⟩]

theorem State.parsed_of_good
    (hgood : s.cfg.parseVerify = true →
      frameCsum s.cfg (headerOf packet) (packet.drop hdrLen) = (headerOf packet).checksum) :
    s.parsed e packet = { s.delivered e (headerOf packet) (packet.drop hdrLen) with resp := some { ok := true } } := by
  rw [State.parsed, if_neg (by omega), if_neg (by omega), if_neg fun ⟨hv, hbad⟩ => hbad (hgood hv)]

end legal

end parsed

/-! ### What `PARSE` answers -/

section parse
variable {s : State} {e : Slot} {ibuf : List Byte} {n : Nat} (hw : s.cfg.wf = true)
  (hl : (s.slot e).dataLength ≤ s.cfg.cap)
include hw hl

theorem exec_parse (hn : n ≤ ibuf.length) : exec (.parse e ibuf n) s = .next (s.parsed e (ibuf.take n)) :=
  execParse_next.2 ⟨hw, hl, hn, rfl⟩

theorem exec_parse_beyond (hn : ibuf.length < n) : exec (.parse e ibuf n) s = .refused .operandTooShort := by
  simp [exec, execParse, requireAll_cons, State.configOk, State.slotOk, Envelope.fits, hw, hl, Nat.not_le.mpr hn]

end parse

/-- Settles O52: the buffer's length is the last of the preconditions of `PARSE`. -/
theorem parseRefusesALengthBeyondItsBuffer : Obligations.ParseRefusesALengthBeyondItsBuffer := fun _ _ _ _ hw hl hn =>
  exec_parse_beyond hw hl hn

/-- Settles O51: one case of `State.parsed` for each test, on the packet of the first `n` bytes. -/
theorem parseRejectsInOrder : Obligations.ParseRejectsInOrder := by
  intro s e ibuf n hw hl hn
  have hlen : (ibuf.take n).length = n := List.length_take_of_le hn
  rw [exec_parse hw hl hn]
  refine ⟨fun hshort => ?_, fun hlong => ?_, fun hmin hmax hv hbad => ?_⟩
  · rw [State.parsed_of_undersize (hlen.trans_lt hshort)]
  · rw [State.parsed_of_overflow (hlong.trans_eq hlen.symm)]
  · rw [← headerOf_take hmin] at hbad
    rw [State.parsed_of_mismatch (hmin.trans_eq hlen.symm) (hlen.trans_le hmax) hv hbad]

/-! ### Delivery -/

/-- R223, field by field: an envelope whose header is decoded from `l` has the bytes of `l` at the fixed offsets. -/
theorem Envelope.fields_of_header_eq_headerOf {v : Envelope} {l : List Byte} (h : v.header = headerOf l) :
    v.cookie = l.getD 0 0 ∧ v.unitId = l.getD 1 0 ∧
      v.serviceId.toNat = 256 * (l.getD 2 0).toNat + (l.getD 3 0).toNat ∧
      v.messageId = l.getD 4 0 ∧ v.checksum = l.getD 5 0 := by
  obtain ⟨hcookie, hunit, hservice, hmessage, hchecksum⟩ := Header.mk.inj h
  exact ⟨hcookie, hunit, by rw [hservice, toNat_joinBytes], hmessage, hchecksum⟩

/-- Settles O50: the packet passes every test, so that the slot holds its header and the bytes behind it, and a delivery
leaves the rest. -/
theorem parseDeliversTheFrame : Obligations.ParseDeliversTheFrame := by
  intro s e ibuf n hw hl hn hmin hmax hgood
  have hlen : (ibuf.take n).length = n := List.length_take_of_le hn
  rw [← headerOf_take hmin] at hgood
  refine ⟨_, exec_parse hw hl hn, ?_⟩
  rw [State.parsed_of_good (hmin.trans_eq hlen.symm) (hlen.trans_le hmax) hgood, headerOf_take hmin]
  simp only [State.slot_mk, State.draws_mk, State.slot_delivered]
  obtain ⟨hheader, hlength, hpayload⟩ :=
    deliveredEnvelope_holds e (s.draws e) (headerOf ibuf) ((ibuf.take n).drop hdrLen)
  obtain ⟨hcookie, hunit, hservice, hmessage, hchecksum⟩ := Envelope.fields_of_header_eq_headerOf hheader
  exact ⟨trivial, hcookie, hunit, hservice, hmessage, hchecksum, by rw [hlength, List.length_drop, hlen, hdrLen], hpayload,
    State.delivered_cfg _ _ _ _, State.delivered_ctx _ _ _ _, State.delivered_iel _ _ _ _, State.delivered_port _ _ _ _,
    fun d hd => ⟨State.slot_delivered_ne _ _ _ _ hd, State.draws_delivered_ne _ _ _ _ hd⟩⟩

end Sys2Proof.Machine
end

section
/-! SUPPORT. The round trip of a built message (`45_builders.md`): what a successful build says of its elements and leaves in
its slot, what sealing, serialising and parsing carry from slot to slot, and the statement about them. -/

namespace Sys2Proof.Machine

/-! ### A successful build -/

/-- An addition whose result bit is 1 passed the capacity test, so that its entry is appended (R151, R152). -/
theorem exec_addElement_ok {tv : Nat × List Byte} {s s1 : State} (h : exec (addElement tv) s = .next s1)
    (hok : s1.okLine = true) : AddReady s tv.1 tv.2 tv.2.length ∧ s1 = s.appended tv.1 tv.2 := by
  obtain ⟨hr, rfl⟩ := execIeAdd_next.1 h
  refine ⟨hr, ?_⟩
  split at hok
  · simp [State.okLine] at hok
  · next hfit => rw [if_neg hfit, List.take_length]

/-- The additions of a build that succeeds: the first succeeds and the others go on from its state (R236, R237). -/
theorem buildTail_cons_true {tv : Nat × List Byte} {ies : List (Nat × List Byte)} {s t : State}
    (h : buildTail (tv :: ies) s = .next (true, t)) :
    AddReady s tv.1 tv.2 tv.2.length ∧ buildTail ies (s.appended tv.1 tv.2) = .next (true, t) := by
  rw [buildTail] at h
  split at h
  · next s1 hadd =>
    split at h
    · next hok =>
      obtain ⟨hr, rfl⟩ := exec_addElement_ok hadd hok
      exact ⟨hr, h⟩
    · simp at h
  · cases h
  · cases h

/-- A build that succeeds could encode every element (R154). -/
theorem encodable_of_buildTail_true {ies : List (Nat × List Byte)} :
    ∀ {s t : State}, buildTail ies s = .next (true, t) → ∀ tv ∈ ies, encodable s.cfg tv := by
  induction ies with
  | nil => simp
  | cons tv ies ih =>
    intro s t h
    obtain ⟨hr, hrest⟩ := buildTail_cons_true h
    have hies := ih hrest
    rw [State.appended_cfg] at hies
    exact List.forall_mem_cons.2 ⟨⟨hr.tag, hr.length⟩, hies⟩

/-- A build that ends is a run of its head and its additions from there (R236). -/
theorem build_next {e : Slot} {unit : Byte} {svc : Half} {msg : Byte} {ies : List (Nat × List Byte)} {s t : State}
    {ok : Bool} (h : build e unit svc msg ies s = .next (ok, t)) :
    ∃ oks s1, runAll (buildHead s.cfg e unit svc msg) s = .next (oks, s1) ∧ buildTail ies s1 = .next (ok, t) := by
  rw [build] at h
  split at h
  · next oks s1 hhead => exact ⟨oks, s1, hhead, h⟩
  · cases h
  · cases h

/-- What a successful build of `ies` in slot `e` leaves (R236, R247): the slot holds the header and the entries in order,
and the configuration and the other slot are as they were. -/
structure Built (e : Slot) (h : Header) (ies : List (Nat × List Byte)) (s t : State) : Prop where
  config : s.cfg.wf = true
  cfg : t.cfg = s.cfg
  elements : ∀ tv ∈ ies, encodable s.cfg tv
  holds : (t.slot e).holds h (listBytes s.cfg ies)
  slot : (t.slot e).dataLength ≤ s.cfg.cap
  other : ∀ d, d ≠ e → t.slot d = s.slot d

/-- The head leaves an empty list and the build's header, to which `buildTail_total` adds the entries (R236). -/
theorem built_of_build_true {e : Slot} {unit : Byte} {svc : Half} {msg : Byte} {ies : List (Nat × List Byte)} {s t : State}
    (h : build e unit svc msg ies s = .next (true, t)) :
    Built e { cookie := 0, unitId := unit, serviceId := svc, messageId := msg, checksum := 0 } ies s t := by
  obtain ⟨oks, s1, hhead, htail⟩ := build_next h
  obtain ⟨_, _, hclr, -, -⟩ := runAll_cons_next hhead
  obtain ⟨hw, hl, -⟩ := execEnvClr_next.1 hclr
  obtain ⟨_, _, hrun, hcfg, -, -, hiel, hother, hlen, hdata, hheader⟩ := buildHead_run unit svc msg hw hl
  cases hhead.symm.trans hrun
  have helems := encodable_of_buildTail_true htail
  obtain ⟨_, _, hrun', hcfg', -, -, hother', hcap', -, hholds⟩ := buildTail_total ies s1 (hcfg ▸ hw) (by simp [hiel])
    (by simp [hiel, hcfg]) (by simp [hiel, hlen]) helems
  cases htail.symm.trans hrun'
  simp only [hiel, hcfg] at hother' hcap' hholds helems
  exact {
    config := hw
    cfg := hcfg'.trans hcfg
    elements := helems
    holds := by simpa [hheader] using hholds
    slot := hcap'
    other := fun d hd => (hother' d hd).trans (hother d hd) }

/-- A build keeps every slot within capacity, the slot built in and the other one (R28). -/
theorem Built.dataLength_le {e : Slot} {h : Header} {ies : List (Nat × List Byte)} {s t : State} (hb : Built e h ies s t)
    {d : Slot} (hl : (s.slot d).dataLength ≤ s.cfg.cap) : (t.slot d).dataLength ≤ s.cfg.cap := by
  by_cases hd : d = e
  · exact hd ▸ hb.slot
  · rwa [hb.other d hd]

/-! ### From slot to slot -/

/-- Sealing changes no length (R140). -/
@[simp] theorem State.dataLength_slot_sealed (s : State) (e d : Slot) :
    ((s.sealed e).slot d).dataLength = (s.slot d).dataLength := by
  by_cases hd : d = e
  · subst hd; simp
  · simp [State.sealed, State.slot_withSlot_ne _ _ _ hd]

/-- A header with the checksum that `CKS.SEAL` gives it over a payload (R140). -/
def Header.sealed (h : Header) (c : Config) (p : List Byte) : Header := { h with checksum := frameCsum c h p }

/-- A sealed header verifies, because `CSUM` does not read the field that sealing writes (R134, R140). -/
theorem frameCsum_sealed (c : Config) (h : Header) (p : List Byte) :
    frameCsum c (h.sealed c p) p = (h.sealed c p).checksum := rfl

/-- Sealing a slot seals the header of the frame that it holds (R140). -/
theorem State.sealed_holds {s : State} {e : Slot} {h : Header} {p : List Byte} (hh : (s.slot e).holds h p) :
    ((s.sealed e).slot e).holds (h.sealed s.cfg p) p := by
  obtain ⟨rfl, hlen, rfl⟩ := hh
  rw [State.slot_sealed]
  exact ⟨rfl, hlen, rfl⟩

/-- A slot that is sealed and serialised parses back with the checksum of its frame, whatever it held before (R246). -/
theorem exec_seal_ser_parse {t : State} {e d : Slot} {h : Header} {p : List Byte} (hw : t.cfg.wf = true)
    (hle : (t.slot e).dataLength ≤ t.cfg.cap) (hld : (t.slot d).dataLength ≤ t.cfg.cap) (hh : (t.slot e).holds h p) :
    ∃ frame t1 t2 u, exec (.cksSeal e) t = .next t1 ∧ exec (.ser e) t1 = .next t2 ∧
      t2.resp = some { ok := true, obuf := some frame, olen := some frame.length } ∧
      exec (.parse d frame frame.length) t2 = .next u ∧ u.resp = some { ok := true } ∧ u.cfg = t.cfg ∧
      (u.slot d).holds (h.sealed t.cfg p) p := by
  have hp : p.length ≤ t.cfg.cap := by
    obtain ⟨-, hlen, -⟩ := hh
    exact hlen ▸ hle
  have hser := exec_ser_of_holds (s := t.sealed e) (by simpa using hw) (by simpa using hle) (State.sealed_holds hh)
  set t2 : State := { t.sealed e with resp := some (.buffer (frameBytes (h.sealed t.cfg p) p)) }
  have hcfg : t2.cfg = t.cfg := State.sealed_cfg t e
  have hlen : (t2.slot d).dataLength = (t.slot d).dataLength := by simp [t2]
  obtain ⟨u, hparse, hresp, hholds, hu⟩ := execParse_frame (s := t2) (e := d) (h := h.sealed t.cfg p) (hcfg ▸ hw)
    (by rwa [hlen, hcfg]) rfl (by rwa [hcfg]) (by rw [hcfg, frameCsum_sealed])
  exact ⟨_, _, t2, u, exec_cksSeal hw hle, hser, rfl, hparse, hresp, hu.trans hcfg, hholds⟩

/-- `IE.GET` on a built list, of a tag that was added (R162). -/
theorem exec_ieGet_firstValue {ies : List (Nat × List Byte)} {e : Slot} {t : State} (hb : BuiltList ies e t) {tag : Nat}
    {v : List Byte} (hv : firstValue ies tag = some v) :
    exec (.ieGet e tag v.length) t =
      .next { t with resp := some { ok := true, obuf := some v, olen := some v.length } } := by
  obtain ⟨htag, -⟩ := hb.elements _ (mem_of_firstValue_some hv)
  rw [exec_ieGet_builtList hb v.length htag, (getResponse_list hb.config hb.elements).1 tag v hv]

/-- Settles O59: the slot built in holds the build's header and its elements' entries, sealing puts the right checksum into
that frame, which the parser therefore accepts into any slot, and the entries it delivers read back as a built list does. -/
theorem builtMessagesParseBack : Obligations.BuiltMessagesParseBack := by
  intro s t e d unit svc msg ies hld hbuild
  have hb := built_of_build_true hbuild
  have hcap : (t.slot d).dataLength ≤ s.cfg.cap := hb.dataLength_le hld
  obtain ⟨frame, t1, t2, u, hseal, hser, hframe, hparse, hresp, hcfg, hheader, hlen, hpayload⟩ :=
    exec_seal_ser_parse (d := d) (hb.cfg ▸ hb.config) (hb.cfg ▸ hb.slot) (hb.cfg ▸ hcap) hb.holds
  obtain ⟨-, hbuilt, -⟩ := hb.holds
  have hus : u.cfg = s.cfg := hcfg.trans hb.cfg
  obtain ⟨-, hunit, hsvc, hmsg, -⟩ := Header.mk.inj hheader
  have hbl : BuiltList ies d u := {
    config := hus ▸ hb.config
    slot := by rw [hus, hlen, ← hbuilt]; exact hb.slot
    elements := hus ▸ hb.elements
    payload := hus ▸ hpayload }
  exact ⟨frame, t1, t2, u, hseal, hser, hframe, hparse, hresp, hunit, hsvc, hmsg, hlen.trans (length_listBytes _ _),
    fun _ _ => exec_ieGet_firstValue hbl⟩

end Sys2Proof.Machine
end

section
/-! SUPPORT. Reset against the initialising operations (`70_reset_and_hazards.md` R290): what their run leaves, and the
statement about it. -/

namespace Sys2Proof.Machine

/-- What the initialising operations of R290 leave: the four groups at zero, and the fields that are the model's own as they
were, but for the output lines. -/
def State.initialised (s : State) : State :=
  { s with ctx := .zero, rxe := .zero, txe := .zero, iel := .zero, resp := some { ok := true } }

/-- The old context and the old list may be anything, since `CTX.INIT` and `IE.NEW` ask nothing of them. Only the two slots
must be within capacity (R28), and `IE.NEW` finds `RXE` already cleared (R150, R172, R190). -/
theorem runAll_initialise {s : State} (hw : s.cfg.wf = true) (hr : s.rxe.dataLength ≤ s.cfg.cap)
    (ht : s.txe.dataLength ≤ s.cfg.cap) :
    runAll [.ctxInit, .envClr .rxe, .envClr .txe, .ieNew .rxe 0] s =
      .next ([true, true, true, true], s.initialised) := by
  have run := runAll_cons (i := .ctxInit) (execCtxInit_next.2 ⟨hw, rfl⟩) <|
    runAll_cons (i := .envClr .rxe) (execEnvClr_next.2 ⟨hw, hr, rfl⟩) <|
    runAll_cons (i := .envClr .txe) (execEnvClr_next.2 ⟨hw, ht, rfl⟩) <|
    runAll_cons (i := .ieNew .rxe 0) (execIeNew_next.2 ⟨hw, Nat.zero_le _, Nat.zero_le _, rfl⟩) (runAll_nil _)
  exact run

/-- Settles O8: both sides are the four zero groups, and the invariant keeps both slots within capacity, which is all that the
run asks for beside the configuration. -/
theorem resetEqualsTheInitialisingOperations : Obligations.ResetEqualsTheInitialisingOperations :=
  ⟨fun _ => ⟨rfl, rfl, rfl, rfl⟩,
    fun _ h => ⟨_, runAll_initialise h.config h.rxe h.txe, rfl, rfl, rfl, rfl, rfl⟩⟩

end Sys2Proof.Machine
end

section
/-! SUPPORT. Everything an operation can do to the state (`20_memory.md` R69), said once for all seventeen, and the statements
that follow from it: the invariant, the frame, the rejections, and that no access leaves its buffer. -/

namespace Sys2Proof.Machine

/-! ### Operations that read a slot, and operations that rewrite its registers -/

/-- The output lines of an operation that reads the envelope `v` and writes no state (`readsSlot`), under configuration `c`.
Its value for the other operations is used nowhere. -/
def readResponse (c : Config) (v : Envelope) : Instr → Response
  | .ieGet _ tag n => getResponse c v.payload tag n
  | .cksCalc _ => { ok := true, r := some ((v.csum c).zeroExtend 16) }
  | .cksVfy _ => if v.csum c = v.checksum then { ok := true } else { ok := false, cause := some .csumMismatch }
  | .ser _ => .buffer (frameBytes v.header v.payload)
  | .sers _ => .buffer (streamBytes c v.header v.payload)
  | _ => { ok := true }

/-- An operation that reads a slot goes on exactly with a slot within capacity and a tag that the port can present. -/
theorem exec_reads_next {i : Instr} {e : Slot} {s t : State} (hi : readsSlot i = some e) :
    exec i s = .next t ↔ s.cfg.wf = true ∧ (s.slot e).dataLength ≤ s.cfg.cap ∧ i.wf s.cfg = true ∧
      { s with resp := some (readResponse s.cfg (s.slot e) i) } = t := by
  cases i with
  | ieGet => cases hi; exact execIeGet_next
  | cksCalc => cases hi; exact execCksCalc_next.trans (by simp [Instr.wf, readResponse])
  | cksVfy => cases hi; exact execCksVfy_next.trans (by simp only [Instr.wf, readResponse]; split <;> simp)
  | ser => cases hi; exact execSer_next.trans (by simp [Instr.wf, readResponse])
  | sers => cases hi; exact execSers_next.trans (by simp [Instr.wf, readResponse])
  | _ => cases hi

/-- The slot whose registers an operation rewrites from the slot itself: `ENV.CLR`, `ENV.SET` and `CKS.SEAL`. -/
def rewritesSlot : Instr → Option Slot
  | .envClr e | .envSet e _ _ | .cksSeal e => some e
  | _ => none

/-- What such an operation makes of the envelope `v`, under configuration `c`. Every other operation leaves it. -/
def rewritten (c : Config) (v : Envelope) : Instr → Envelope
  | .envClr _ => .zero
  | .envSet _ f x => v.setField f x
  | .cksSeal _ => { v with checksum := v.csum c }
  | _ => v

theorem exec_rewrites_next {i : Instr} {e : Slot} {s t : State} (hi : rewritesSlot i = some e) :
    exec i s = .next t ↔ s.cfg.wf = true ∧ (s.slot e).dataLength ≤ s.cfg.cap ∧
      { s.withSlot e (rewritten s.cfg (s.slot e) i) with resp := some { ok := true } } = t := by
  cases i with
  | envClr => cases hi; exact execEnvClr_next
  | envSet => cases hi; exact execEnvSet_next
  | cksSeal => cases hi; exact execCksSeal_next
  | _ => cases hi

/-- A rewritten envelope differs from the old one in the header fields, or it is the zero envelope. -/
theorem rewritten_cases (c : Config) (v : Envelope) (i : Instr) :
    rewritten c v i = .zero ∨
      (rewritten c v i).dataLength = v.dataLength ∧ (rewritten c v i).data = v.data := by
  cases i with
  | envClr => exact .inl rfl
  | envSet e f x => exact .inr (by rw [rewritten, Envelope.setField_eq]; exact ⟨rfl, rfl⟩)
  | _ => exact .inr ⟨rfl, rfl⟩

/-! ### Everything an operation can do -/

/-- The output lines of an operation that ends with nothing else done: `ok = 1`, or a rejection with a cause of its own and
no other line driven (R261, R262). -/
def Answers (i : Instr) (r : Response) : Prop := r.ok = true ∨ ∃ c ∈ mayRaise i, r = { ok := false, cause := some c }

/-- Everything an operation can do (R69). -/
inductive ExecEffect (s : State) : Instr → State → Prop where
  | answered {i : Instr} {r : Response} (hi : writesCtx i = false) (hr : Answers i r) :
      ExecEffect s i { s with resp := some r }
  | zeroedCtx : ExecEffect s .ctxInit { s with ctx := .zero, resp := some { ok := true } }
  | fed {b : Byte} {t : State} (h : FeedEffect s b t) : ExecEffect s (.feed b) t
  | delivered {e : Slot} {ibuf : List Byte} {n : Nat} (h : Header) {p : List Byte} (hp : p.length ≤ s.cfg.cap) :
      ExecEffect s (.parse e ibuf n) { s.delivered e h p with resp := some { ok := true } }
  | rewrote {i : Instr} {e : Slot} (hi : rewritesSlot i = some e) :
      ExecEffect s i { s.withSlot e (rewritten s.cfg (s.slot e) i) with resp := some { ok := true } }
  | lengthSet : ExecEffect s .envSetLen
      { s.withSlot s.iel.slot { s.slot s.iel.slot with dataLength := s.iel.size } with resp := some { ok := true } }
  | listed {e : Slot} {n : Nat} (hn : n ≤ s.cfg.cap) :
      ExecEffect s (.ieNew e n) { s with iel := { slot := e, cap := n, size := 0 }, resp := some { ok := true } }
  | appended {tag n : Nat} {ibuf : List Byte} (hn : n ≤ ibuf.length) (hfit : s.iel.size + ovh s.cfg + n ≤ s.iel.cap) :
      ExecEffect s (.ieAdd tag ibuf n) (s.appended tag (ibuf.take n))

/-- An operation that reads a slot answers 1, or 0 with its cause. -/
theorem readResponse_answers (c : Config) (v : Envelope) {i : Instr} {e : Slot} (hi : readsSlot i = some e) :
    Answers i (readResponse c v i) := by
  cases i with
  | ieGet _ tag n =>
    simp only [readResponse, getResponse]
    split
    · exact .inl rfl
    · exact .inr ⟨.ieAbsent, by simp [mayRaise], rfl⟩
  | cksVfy =>
    simp only [readResponse]
    split
    · exact .inl rfl
    · exact .inr ⟨.csumMismatch, by simp [mayRaise], rfl⟩
  | cksCalc | ser | sers => exact .inl rfl
  | _ => cases hi

theorem effect_of_reads {i : Instr} {e : Slot} {s t : State} (hi : readsSlot i = some e) (hx : writesCtx i = false)
    (h : exec i s = .next t) : ExecEffect s i t := by
  obtain ⟨-, -, -, rfl⟩ := (exec_reads_next hi).1 h
  exact .answered hx (readResponse_answers _ _ hi)

theorem effect_of_rewrites {i : Instr} {e : Slot} {s t : State} (hi : rewritesSlot i = some e) (h : exec i s = .next t) :
    ExecEffect s i t := by
  obtain ⟨-, -, rfl⟩ := (exec_rewrites_next hi).1 h
  exact .rewrote hi

theorem effect_of_parse {e : Slot} {ibuf : List Byte} {n : Nat} {s t : State} (h : exec (.parse e ibuf n) s = .next t) :
    ExecEffect s (.parse e ibuf n) t := by
  obtain ⟨-, -, -, rfl⟩ := execParse_next.1 h
  rcases parsed_cases s.cfg (ibuf.take n) with ⟨cause, hcause, hrej⟩ | ⟨-, hmax, -, hdel⟩
  · rw [hrej s e rfl]; exact .answered rfl (.inr ⟨cause, hcause, rfl⟩)
  · rw [hdel s e rfl]; exact .delivered _ (by rwa [List.length_drop])

theorem effect_of_ieAdd {tag n : Nat} {ibuf : List Byte} {s t : State} (h : exec (.ieAdd tag ibuf n) s = .next t) :
    ExecEffect s (.ieAdd tag ibuf n) t := by
  obtain ⟨hr, rfl⟩ := execIeAdd_next.1 h
  split
  · exact .answered rfl (.inr ⟨.ieCapacity, by simp [mayRaise], rfl⟩)
  · next hfit => exact .appended hr.operand (Nat.not_lt.mp hfit)

/-- Every operation that answers a next state has one of the effects. -/
theorem exec_effect {i : Instr} {s t : State} (h : exec i s = .next t) : ExecEffect s i t := by
  cases i with
  | ctxInit => obtain ⟨-, rfl⟩ := execCtxInit_next.1 h; exact .zeroedCtx
  | feed b => obtain ⟨-, -, heffect⟩ := execFeed_next h; exact .fed heffect
  | parse => exact effect_of_parse h
  | envClr | envSet | cksSeal => exact effect_of_rewrites rfl h
  | envSetLen => obtain ⟨-, -, -, rfl⟩ := execEnvSetLen_next.1 h; exact .lengthSet
  | ieNew => obtain ⟨-, -, hn, rfl⟩ := execIeNew_next.1 h; exact .listed hn
  | ieAdd => exact effect_of_ieAdd h
  | ieSize => obtain ⟨-, -, rfl⟩ := execIeSize_next.1 h; exact .answered rfl (.inl rfl)
  | h2n16 => obtain ⟨-, rfl⟩ := execH2N16_next.1 h; exact .answered rfl (.inl rfl)
  | n2h16 => obtain ⟨-, rfl⟩ := execN2H16_next.1 h; exact .answered rfl (.inl rfl)
  | ieGet | cksCalc | cksVfy | ser | sers => exact effect_of_reads rfl rfl h

/-! ### The invariant -/

theorem State.inv_ctx {s : State} (h : s.Inv) {x : Ctx} (hc : x.consistent s.cfg = true) (hh : x.hdr.sound (shdr s.cfg))
    (hp : x.payload.sound s.cfg.cap) (hd : x.declLen ≤ s.cfg.cap) (r : Option Response) :
    State.Inv { s with ctx := x, resp := r } :=
  ⟨h.config, h.rxe, h.txe, h.list, hc, h.rxeData, h.txeData, hh, hp, hd⟩

/-- Storing a header byte below the header's end keeps its buffer sound. -/
theorem headerWith_sound {s : State} (h : s.Inv) (b : Byte) (hc : s.ctx.count < shdr s.cfg) :
    (headerWith s b).sound (shdr s.cfg) :=
  Memory.sound_set b h.hdr hc

/-- `FEED` keeps the invariant, effect by effect (R37, R38). -/
theorem FeedEffect.inv {s t : State} {b : Byte} (he : FeedEffect s b t) (h : s.Inv) : t.Inv := by
  cases he with
  | headerByte hp hc =>
    apply State.inv_ctx h
    · exact consistent_iff.2 (.inl ⟨hp, hc⟩)
    · exact headerWith_sound h b (by omega)
    · exact h.payload
    · exact h.declared
  | rejected => exact State.inv_resp (State.inv_ctxZero h) _
  | declared hp hc hl hu =>
    apply State.inv_ctx h
    · exact consistent_iff.2 (.inr ⟨rfl, by dsimp only; omega⟩)
    · exact headerWith_sound h b (by omega)
    · exact h.payload
    · dsimp only; omega
  | payloadByte hp hd hs hc =>
    apply State.inv_ctx h
    · exact consistent_iff.2 (.inr ⟨hp, by dsimp only; omega⟩)
    · exact h.hdr
    · exact Memory.sound_set b h.payload (by omega)
    · exact hd
  | delivered hdr payload _ hl _ => exact State.inv_resp (State.inv_ctxZero (State.inv_delivered h .rxe _ hl)) _

/-- The state after `ENV.CLR`, `ENV.SET` or `CKS.SEAL`: the slot's length and bytes are the old ones or zero. -/
theorem State.inv_rewritten {s : State} (h : s.Inv) (e : Slot) (i : Instr) :
    (s.withSlot e (rewritten s.cfg (s.slot e) i)).Inv := by
  obtain ⟨hlen, hsound⟩ := State.inv_slot h e
  rcases rewritten_cases s.cfg (s.slot e) i with hzero | ⟨hlen', hdata⟩
  · rw [hzero]; exact State.inv_withSlot h e _ (Nat.zero_le _) (Memory.sound_zero _)
  · exact State.inv_withSlot h e _ (hlen'.trans_le hlen) (hdata ▸ hsound)

/-- Every operation keeps the invariant. -/
theorem ExecEffect.inv {i : Instr} {s t : State} (he : ExecEffect s i t) (h : s.Inv) : t.Inv := by
  cases he with
  | answered => exact State.inv_resp h _
  | zeroedCtx => exact State.inv_resp (State.inv_ctxZero h) _
  | fed hfeed => exact hfeed.inv h
  | delivered hd hp => exact State.inv_resp (State.inv_delivered h _ hd hp) _
  | rewrote => exact State.inv_resp (State.inv_rewritten h _ _) _
  | lengthSet =>
    obtain ⟨hsize, hcap⟩ := h.list
    obtain ⟨-, hsound⟩ := State.inv_slot h s.iel.slot
    exact State.inv_resp (State.inv_withSlot h s.iel.slot { s.slot s.iel.slot with dataLength := s.iel.size }
      (hsize.trans hcap) hsound) _
  | @listed e n hn =>
    exact State.inv_resp (State.inv_iel h (l := { slot := e, cap := n, size := 0 }) ⟨Nat.zero_le _, hn⟩) _
  | appended hn hfit => exact State.inv_appended h (by rwa [List.length_take_of_le hn])

/-- A step that answers a next state idles, or runs one operation on the state without the oldest transaction (R60, R282). -/
theorem step_next {s t : State} (h : step s = .next t) :
    t = s ∨ ∃ i rest, exec i { s with port := rest } = .next t := by
  rw [step] at h
  split at h
  · cases h; exact .inl rfl
  · next tr s1 hfetch =>
    rw [State.fetch] at hfetch
    split at hfetch
    · cases hfetch
    · cases hfetch
      split at h
      · exact .inr ⟨_, _, h⟩
      · cases h

/-- Settles O7: an idle step changes nothing, taking a transaction touches the port only, and each effect of an operation
keeps every part of the invariant. -/
theorem stepKeepsTheInvariant : Obligations.StepKeepsTheInvariant := by
  intro s t h hstep
  rcases step_next hstep with rfl | ⟨i, rest, hexec⟩
  · exact h
  · exact (exec_effect hexec).inv (State.inv_port h rest)

/-! ### The frame -/

/-- Where a write to slot `e` keeps what `g` tells of an envelope, every slot keeps it. -/
theorem State.slot_withSlot_congr {β : Type} (g : Envelope → β) {s : State} {e : Slot} {v : Envelope}
    (hg : g v = g (s.slot e)) (d : Slot) : g ((s.withSlot e v).slot d) = g (s.slot d) := by
  rw [State.slot_withSlot_ite]
  split
  · next hd => rw [hg, hd]
  · rfl

theorem writesSlot_of_rewritesSlot {i : Instr} {e : Slot} (list : Slot) (hi : rewritesSlot i = some e) :
    writesSlot list i = some e := by
  cases i with
  | envClr | envSet | cksSeal => exact hi
  | _ => cases hi

theorem rewritten_field (c : Config) (v : Envelope) {i : Instr} {f : HeaderField} (hf : writesField f i = false) :
    (rewritten c v i).field f = v.field f := by
  cases i with
  | envClr => cases hf
  | envSet e g x =>
    have hgf : g ≠ f := of_decide_eq_false hf
    rw [rewritten, Envelope.setField_eq]
    cases f <;> simp [Envelope.field, hgf]
  | cksSeal =>
    have hfc : f ≠ .checksum := of_decide_eq_false hf
    cases f with
    | checksum => exact absurd rfl hfc
    | cookie | unitId | serviceId | messageId => rfl
  | _ => rfl

theorem rewritten_dataLength (c : Config) (v : Envelope) {i : Instr} (hi : writesLength i = false) :
    (rewritten c v i).dataLength = v.dataLength := by
  cases i with
  | envClr => cases hi
  | envSet _ f _ => cases f <;> rfl
  | _ => rfl

theorem rewritten_data (c : Config) (v : Envelope) {i : Instr} (hi : writesData i = false) :
    (rewritten c v i).data = v.data := by
  cases i with
  | envClr => cases hi
  | envSet _ f _ => cases f <;> rfl
  | _ => rfl

section frame
variable {i : Instr} {s t : State} (he : ExecEffect s i t)
include he

/-- No operation writes the configuration or the port. -/
theorem ExecEffect.cfg_port : t.cfg = s.cfg ∧ t.port = s.port := by
  cases he with
  | fed hfeed => cases hfeed <;> simp
  | _ => simp

theorem ExecEffect.ctx (hi : writesCtx i = false) : t.ctx = s.ctx := by
  cases he with
  | zeroedCtx | fed => cases hi
  | _ => simp

theorem ExecEffect.iel (hi : writesIel i = false) : t.iel = s.iel := by
  cases he with
  | listed | appended => cases hi
  | fed hfeed => exact hfeed.keeps_transmit.2.2
  | _ => simp

/-- A slot outside the operation's row of R69 is as it was. -/
theorem ExecEffect.slot {e : Slot} (hi : writesSlot s.iel.slot i ≠ some e) : t.slot e = s.slot e := by
  have ne_of_writes {d : Slot} (hd : writesSlot s.iel.slot i = some d) : e ≠ d := fun h => hi (by rw [hd, h])
  cases he with
  | answered | zeroedCtx | listed => simp
  | fed hfeed =>
    cases e with
    | rxe => exact absurd rfl hi
    | txe => exact hfeed.keeps_transmit.1
  | delivered => rw [State.slot_mk, State.slot_delivered_ne _ _ _ _ (ne_of_writes rfl)]
  | rewrote hr => rw [State.slot_mk, State.slot_withSlot_ne _ _ _ (ne_of_writes (writesSlot_of_rewritesSlot _ hr))]
  | lengthSet => rw [State.slot_mk, State.slot_withSlot_ne _ _ _ (ne_of_writes rfl)]
  | appended => exact State.slot_appended_ne _ _ _ (ne_of_writes rfl)

/-- Only a delivery into a slot draws unspecified bytes of it (R29). -/
theorem ExecEffect.draws {e : Slot} (hi : writesSlot s.iel.slot i ≠ some e ∨ mayDraw i = false) : t.draws e = s.draws e := by
  cases he with
  | answered | zeroedCtx | rewrote | lengthSet | listed | appended => simp
  | fed hfeed =>
    cases e with
    | rxe => simp [writesSlot, mayDraw] at hi
    | txe => exact hfeed.keeps_transmit.2.1
  | @delivered d =>
    have hd : e ≠ d := by rintro rfl; simp [writesSlot, mayDraw] at hi
    rw [State.draws_mk, State.draws_delivered_ne _ _ _ _ hd]

theorem ExecEffect.field {f : HeaderField} (hi : writesField f i = false) (e : Slot) :
    (t.slot e).field f = (s.slot e).field f := by
  cases he with
  | answered | zeroedCtx | listed => simp
  | fed | delivered => cases hi
  | rewrote => rw [State.slot_mk]; exact State.slot_withSlot_congr (·.field f) (rewritten_field _ _ hi) e
  | lengthSet => rw [State.slot_mk]; exact State.slot_withSlot_congr (·.field f) (by cases f <;> rfl) e
  | appended => rw [State.appended, State.slot_mk]; exact State.slot_withSlot_congr (·.field f) (by cases f <;> rfl) e

theorem ExecEffect.dataLength (hi : writesLength i = false) (e : Slot) : (t.slot e).dataLength = (s.slot e).dataLength := by
  cases he with
  | answered | zeroedCtx | listed => simp
  | fed | delivered | lengthSet => cases hi
  | rewrote => rw [State.slot_mk]; exact State.slot_withSlot_congr (·.dataLength) (rewritten_dataLength _ _ hi) e
  | appended => rw [State.appended, State.slot_mk]; exact State.slot_withSlot_congr (·.dataLength) (by rfl) e

theorem ExecEffect.data (hi : writesData i = false) (e : Slot) : (t.slot e).data = (s.slot e).data := by
  cases he with
  | answered | zeroedCtx | listed => simp
  | fed | delivered | appended => cases hi
  | rewrote => rw [State.slot_mk]; exact State.slot_withSlot_congr (·.data) (rewritten_data _ _ hi) e
  | lengthSet => rw [State.slot_mk]; exact State.slot_withSlot_congr (·.data) (by rfl) e

end frame

/-- `IE.ADD` keeps the list's slot and capacity and every byte outside its entry (R152). -/
theorem ExecEffect.ieAdd {tag n : Nat} {ibuf : List Byte} {s t : State} (he : ExecEffect s (.ieAdd tag ibuf n) t) :
    t.iel.slot = s.iel.slot ∧ t.iel.cap = s.iel.cap ∧
      ∀ e a, a < s.iel.size ∨ s.iel.size + ovh s.cfg + n ≤ a → (t.slot e).data.get a = (s.slot e).data.get a := by
  cases he with
  | answered => simp
  | rewrote hi => cases hi
  | appended hn =>
    refine ⟨rfl, rfl, fun e a ha => ?_⟩
    by_cases hd : e = s.iel.slot
    · subst hd
      exact s.get_appended_outside tag _ (by rwa [List.length_take_of_le hn])
    · rw [State.slot_appended_ne _ _ _ hd]

/-- Settles O10: each clause is one of the frame lemmas of the operation's effect. -/
theorem operationsWriteOnlyTheirWriteSet : Obligations.OperationsWriteOnlyTheirWriteSet := by
  intro i s t h
  have he := exec_effect h
  obtain ⟨hcfg, hport⟩ := he.cfg_port
  exact ⟨hcfg, hport, he.ctx, he.iel, fun _ => he.slot, fun _ => he.draws, fun e _ hf => he.field hf e,
    fun e hl => he.dataLength hl e, fun e hd a => by rw [he.data hd e], fun _ _ _ hi => (hi ▸ he).ieAdd⟩

/-! ### Rejections -/

/-- What a `FEED` that answers 0 leaves (R202, R262): everything but `CTX` as it was, and a zero `CTX` where it has a cause. -/
theorem FeedEffect.rejected_or_mid {s t : State} {b : Byte} {r : Response} (he : FeedEffect s b t) (hr : t.resp = some r)
    (hok : r.ok = false) :
    (r = { ok := false } ∨ ∃ c ∈ mayRaise (.feed b), r = { ok := false, cause := some c } ∧ t.ctx = .zero) ∧
      t = { s with ctx := t.ctx, resp := some r } := by
  cases he with
  | headerByte | declared | payloadByte => cases hr; exact ⟨.inl rfl, rfl⟩
  | rejected c hc => cases hr; exact ⟨.inr ⟨c, hc, rfl, rfl⟩, rfl⟩
  | delivered => cases hr; cases hok

/-- What any other operation that answers 0 leaves (R262): everything as it was. -/
theorem ExecEffect.rejected {i : Instr} {s t : State} {r : Response} (he : ExecEffect s i t) (hi : ∀ b, i ≠ .feed b)
    (hr : t.resp = some r) (hok : r.ok = false) :
    (∃ c ∈ mayRaise i, r = { ok := false, cause := some c }) ∧ t = { s with resp := some r } := by
  cases he with
  | answered _ ha => cases hr; exact ⟨ha.resolve_left (by simp [hok]), rfl⟩
  | fed => exact absurd rfl (hi _)
  | zeroedCtx | delivered | rewrote | lengthSet | listed | appended => cases hr; cases hok

/-- Settles O11: a `FEED` that answers 0 is in mid-frame or rejects, and every other operation that does rejects. -/
theorem rejectionsLeaveOnlyTheirEffects : Obligations.RejectionsLeaveOnlyTheirEffects := by
  intro i s t r h hr hok
  by_cases hi : ∀ b, i ≠ .feed b
  · obtain ⟨⟨c, hc, rfl⟩, ht⟩ := (exec_effect h).rejected hi hr hok
    refine ⟨rfl, rfl, rfl, fun c' hc' => ?_, fun _ => ⟨by simp, ht⟩, fun b hb => absurd hb (hi b)⟩
    cases hc'; exact hc
  · obtain ⟨b, rfl⟩ : ∃ b, i = .feed b := by simpa using hi
    obtain ⟨-, -, hfeed⟩ := execFeed_next h
    obtain ⟨hcase, ht⟩ := hfeed.rejected_or_mid hr hok
    rcases hcase with rfl | ⟨c, hc, rfl, hz⟩
    · exact ⟨rfl, rfl, rfl, by simp, fun hne => absurd rfl (hne b), fun _ _ => ⟨ht, by simp⟩⟩
    · refine ⟨rfl, rfl, rfl, fun c' hc' => ?_, fun hne => absurd rfl (hne b), fun _ _ => ⟨ht, fun _ => hz⟩⟩
      cases hc'; exact hc

/-! ### The five operations that can return 0 -/

theorem mayFail_of_mem_mayRaise {i : Instr} {c : Cause} (h : c ∈ mayRaise i) : mayFail i = true := by
  cases i with
  | feed | parse | ieAdd | ieGet | cksVfy => rfl
  | _ => cases h

/-- Every operation drives `ok` (R119). -/
theorem ExecEffect.resp {i : Instr} {s t : State} (he : ExecEffect s i t) :
    ∃ r, t.resp = some r ∧ (r.ok = false → mayFail i = true) := by
  cases he with
  | @answered _ r _ ha =>
    refine ⟨r, rfl, fun hok => ?_⟩
    obtain ⟨c, hc, -⟩ := ha.resolve_left (by simp [hok])
    exact mayFail_of_mem_mayRaise hc
  | fed hfeed =>
    have hsome : ∃ r, t.resp = some r := by cases hfeed <;> exact ⟨_, rfl⟩
    obtain ⟨r, hr⟩ := hsome
    exact ⟨r, hr, fun _ => rfl⟩
  | zeroedCtx | delivered | rewrote | lengthSet | listed | appended => exact ⟨_, rfl, by simp⟩

/-- The reset state meets the invariant (R46). -/
theorem State.inv_resetWith {c : Config} (hw : c.wf = true) : (State.resetWith c).Inv :=
  ⟨hw, Nat.zero_le _, Nat.zero_le _, ⟨Nat.zero_le _, Nat.zero_le _⟩, consistent_zero hw, Memory.sound_zero _,
    Memory.sound_zero _, Memory.sound_zero _, Memory.sound_zero _, Nat.zero_le _⟩

/-- Settles O6: lengths and counts are zero, and a zero buffer is sound. -/
theorem resetMeetsTheInvariant : Obligations.ResetMeetsTheInvariant := fun _ => State.inv_resetWith

theorem State.inv_reset : State.reset.Inv := State.inv_resetWith (by decide)

/-- Reset with a checksum byte of 1 in `TXE`, so that the slot does not verify. -/
def unverified : State := State.reset.withSlot .txe { Envelope.zero with checksum := 1 }

theorem unverified_inv : unverified.Inv :=
  State.inv_withSlot State.inv_reset .txe _ (Nat.zero_le _) (Memory.sound_zero _)

/-- Settles O12: from reset a first header byte, an empty packet, an addition to the list without room and a look into an
empty slot return 0, and the comparison fails on a slot whose checksum byte is wrong. -/
theorem onlyFiveOperationsReturnZero : Obligations.OnlyFiveOperationsReturnZero :=
  ⟨fun _ _ _ h => (exec_effect h).resp,
    ⟨0, State.reset, _, State.inv_reset, rfl, rfl⟩,
    ⟨.rxe, [], 0, State.reset, _, State.inv_reset, rfl, rfl⟩,
    ⟨0, [], 0, State.reset, _, State.inv_reset, rfl, rfl⟩,
    ⟨.rxe, 0, 0, State.reset, _, State.inv_reset, rfl, rfl⟩,
    ⟨.txe, unverified, _, unverified_inv, rfl, rfl⟩⟩

/-! ### No access beyond a buffer -/

theorem answer_ne_fault (s : State) (r : Response) (f : Fault) : s.answer r ≠ .fault f := by simp

/-- An operation does not fault where its preconditions keep it from faulting. -/
theorem requireAll_ne_fault {l : List (Bool × Refusal)} {k : Answer} {f : Fault}
    (h : (∀ p ∈ l, p.1 = true) → k ≠ .fault f) : requireAll l k ≠ .fault f := fun hf =>
  have ⟨hall, hk⟩ := requireAll_fault.1 hf
  h hall hk

/-- A slot within capacity has its payload inside its buffer (R28, R70). -/
theorem payload_ne_fault {s : State} {e : Slot} {l : List (Bool × Refusal)} {k : List Byte → Answer} {f : Fault}
    (hl : ∀ p ∈ l, p.1 = true) (he : s.slotOk e ∈ l) (hk : ∀ p, k p ≠ .fault f) : orFault (s.payload e) k ≠ .fault f := by
  rw [payload_ok (of_decide_eq_true (hl _ he)), orFault_ok]
  exact hk _

theorem execFeed_ne_fault (b : Byte) (s : State) (f : Fault) : execFeed b s ≠ .fault f := by
  intro h
  obtain ⟨hall, -⟩ := requireAll_fault.1 h
  obtain ⟨t, ht, -⟩ := execFeed_total b ⟨hall s.configOk (by simp), of_decide_eq_true (hall (s.slotOk .rxe) (by simp))⟩
    (hall s.contextOk (by simp))
  rw [h] at ht
  cases ht

theorem execParse_ne_fault (e : Slot) (ibuf : List Byte) (n : Nat) (s : State) (f : Fault) : execParse e ibuf n s ≠ .fault f := by
  intro h
  obtain ⟨hall, -⟩ := requireAll_fault.1 h
  have ht := execParse_next.2 ⟨hall s.configOk (by simp), of_decide_eq_true (hall (s.slotOk e) (by simp)),
    of_decide_eq_true (hall (decide (n ≤ ibuf.length), .operandTooShort) (by simp)), rfl⟩
  rw [h] at ht
  cases ht

/-- The capacity test of R151 keeps the entry inside the slot's buffer, since the list's capacity is within it (R40). -/
theorem execIeAdd_ne_fault (tag : Nat) (ibuf : List Byte) (n : Nat) (s : State) (f : Fault) :
    execIeAdd tag ibuf n s ≠ .fault f := by
  apply requireAll_ne_fault
  intro hall
  have hlist : s.iel.size ≤ s.iel.cap ∧ s.iel.cap ≤ s.cfg.cap := by
    simpa [State.listOk, Iel.fits] using hall s.listOk (by simp)
  have hn : n ≤ ibuf.length := of_decide_eq_true (hall (decide (n ≤ ibuf.length), .operandTooShort) (by simp))
  split
  · simp
  · rw [appendEntry_eq (by rw [List.length_take_of_le hn]; omega)]
    simp

/-- No operation faults, in any state (R70, R207). -/
theorem exec_ne_fault (i : Instr) (s : State) (f : Fault) : exec i s ≠ .fault f := by
  cases i with
  | ctxInit | envClr | envSet | envSetLen | ieNew | ieSize | h2n16 | n2h16 =>
    exact requireAll_ne_fault fun _ => answer_ne_fault _ _ f
  | feed b => exact execFeed_ne_fault b s f
  | parse e ibuf n => exact execParse_ne_fault e ibuf n s f
  | ieAdd tag ibuf n => exact execIeAdd_ne_fault tag ibuf n s f
  | cksCalc e | cksSeal e | ser e | sers e =>
    exact requireAll_ne_fault fun hall => payload_ne_fault hall (by simp) fun _ => answer_ne_fault _ _ f
  | cksVfy e =>
    exact requireAll_ne_fault fun hall => payload_ne_fault hall (by simp) fun _ => by split <;> simp
  | ieGet e tag n =>
    exact requireAll_ne_fault fun hall => payload_ne_fault hall (by simp) fun _ => by split <;> simp

theorem step_ne_fault (s : State) (f : Fault) : step s ≠ .fault f := by
  rw [step]
  split
  · simp
  · split
    · exact exec_ne_fault _ _ f
    · simp

/-- Settles O9: an access beyond the capacity faults, and every operation's preconditions and tests keep its accesses within. -/
theorem noOperationLeavesItsBuffers : Obligations.NoOperationLeavesItsBuffers :=
  ⟨fun _ _ _ _ => readBytes_error, fun _ _ _ _ => writeBytes_error, exec_ne_fault, step_ne_fault⟩

end Sys2Proof.Machine
end

section
/-! SUPPORT. What an operation depends on: the operations of the receive and of the transmit group read and write their own part
of the state only (`20_memory.md` R63), a repeated operation finds what it left (R69), an operation that reads a slot sees its
header and payload only (R29), and a broken slot, context or list is refused (R28, R37, R40); and the statements about these. -/

namespace Sys2Proof.Machine

/-! ### Operations that read a slot -/

/-- Equivalent envelopes are read alike (R16, R29). -/
theorem readResponse_congr {c : Config} {v w : Envelope} (h : v.equiv w) (i : Instr) :
    readResponse c v i = readResponse c w i := by
  have hpayload := Envelope.equiv_payload h
  obtain ⟨hheader, -, -⟩ := h
  have hchecksum : v.checksum = w.checksum := congrArg Header.checksum hheader
  have hcsum : v.csum c = w.csum c := by rw [← frameCsum_header, ← frameCsum_header, hheader, hpayload]
  cases i with
  | ieGet | cksCalc | cksVfy | ser | sers => simp only [readResponse, hheader, hpayload, hchecksum, hcsum]
  | _ => rfl

/-- Settles O15: the operation goes on from the second state too, and its response is the same function of both slots. -/
theorem tailBytesNeverReachAResult : Obligations.TailBytesNeverReachAResult := by
  intro i e s s' t hi hcfg hequiv h
  obtain ⟨hw, hl, hwf, rfl⟩ := (exec_reads_next hi).1 h
  have hlen : (s'.slot e).dataLength ≤ s.cfg.cap := by
    obtain ⟨-, hlen, -⟩ := hequiv
    exact hlen ▸ hl
  refine ⟨_, (exec_reads_next hi).2 ⟨hcfg ▸ hw, hcfg ▸ hlen, hcfg ▸ hwf, rfl⟩, ?_⟩
  rw [← hcfg, readResponse_congr hequiv i]

/-! ### Repeated operations -/

theorem rewritten_rewritten (c : Config) (v : Envelope) (i : Instr) :
    rewritten c (rewritten c v i) i = rewritten c v i := by
  cases i with
  | envSet _ f _ => cases f <;> rfl
  | _ => rfl

theorem rewritten_fits {c : Config} {v : Envelope} (i : Instr) (h : v.dataLength ≤ c.cap) :
    (rewritten c v i).dataLength ≤ c.cap := by
  rcases rewritten_cases c v i with hzero | ⟨hlen, -⟩
  · rw [hzero]; exact Nat.zero_le _
  · rwa [hlen]

/-- Writing a slot again with what it holds, and driving the same output lines, changes nothing. -/
theorem State.withSlot_again (s : State) (e : Slot) {v w : Envelope} (r : Option Response) (hw : w = v) :
    { State.withSlot { s.withSlot e v with resp := r } e w with resp := r } = { s.withSlot e v with resp := r } := by
  subst hw
  cases e <;> rfl

theorem exec_again_of_reads {i : Instr} {e : Slot} {s t : State} (hi : readsSlot i = some e) (h : exec i s = .next t) :
    exec i t = .next t := by
  obtain ⟨hw, hl, hwf, rfl⟩ := (exec_reads_next hi).1 h
  exact (exec_reads_next hi).2 ⟨hw, by simpa using hl, hwf, by simp⟩

theorem exec_again_of_rewrites {i : Instr} {e : Slot} {s t : State} (hi : rewritesSlot i = some e) (h : exec i s = .next t) :
    exec i t = .next t := by
  obtain ⟨hw, hl, rfl⟩ := (exec_rewrites_next hi).1 h
  refine (exec_rewrites_next hi).2 ⟨by simpa using hw, by simpa using rewritten_fits i hl, ?_⟩
  exact State.withSlot_again s e _ (by simp [rewritten_rewritten])

theorem exec_envSetLen_again {s t : State} (h : exec .envSetLen s = .next t) : exec .envSetLen t = .next t := by
  obtain ⟨hw, ⟨hsize, hcap⟩, -, rfl⟩ := execEnvSetLen_next.1 h
  refine execEnvSetLen_next.2 ⟨by simpa using hw, by simpa using ⟨hsize, hcap⟩, by simpa using hsize.trans hcap, ?_⟩
  cases hslot : s.iel.slot <;> simp [State.withSlot, hslot]

/-- Every operation but `FEED`, `IE.ADD` and `PARSE` that has run finds the very state that it leaves. -/
theorem exec_again {i : Instr} {s t : State} (hfeed : ∀ b, i ≠ .feed b) (hadd : ∀ tag ibuf n, i ≠ .ieAdd tag ibuf n)
    (hparse : ∀ e ibuf n, i ≠ .parse e ibuf n) (h : exec i s = .next t) : exec i t = .next t := by
  cases i with
  | feed b => exact absurd rfl (hfeed b)
  | ieAdd tag ibuf n => exact absurd rfl (hadd tag ibuf n)
  | parse e ibuf n => exact absurd rfl (hparse e ibuf n)
  | ctxInit => obtain ⟨hw, rfl⟩ := execCtxInit_next.1 h; exact execCtxInit_next.2 ⟨hw, rfl⟩
  | envClr | envSet | cksSeal => exact exec_again_of_rewrites rfl h
  | envSetLen => exact exec_envSetLen_again h
  | ieNew =>
    obtain ⟨hw, hl, hn, rfl⟩ := execIeNew_next.1 h
    exact execIeNew_next.2 ⟨hw, by simpa using hl, hn, rfl⟩
  | ieSize => obtain ⟨hw, hl, rfl⟩ := execIeSize_next.1 h; exact execIeSize_next.2 ⟨hw, hl, rfl⟩
  | h2n16 => obtain ⟨hw, rfl⟩ := execH2N16_next.1 h; exact execH2N16_next.2 ⟨hw, rfl⟩
  | n2h16 => obtain ⟨hw, rfl⟩ := execN2H16_next.1 h; exact execN2H16_next.2 ⟨hw, rfl⟩
  | ieGet | cksCalc | cksVfy | ser | sers => exact exec_again_of_reads rfl h

/-- A delivery repeated leaves an equivalent slot: the same frame over another draw of unspecified bytes (R29). -/
theorem State.delivered_again (s : State) (e : Slot) (h : Header) (p : List Byte) (r : Option Response) (d : Slot) :
    ((State.delivered { s.delivered e h p with resp := r } e h p).slot d).equiv ((s.delivered e h p).slot d) := by
  by_cases hd : d = e
  · subst hd
    rw [State.slot_delivered, State.slot_delivered]
    exact Envelope.equiv_of_holds (deliveredEnvelope_holds _ _ _ _) (deliveredEnvelope_holds _ _ _ _)
  · rw [State.slot_delivered_ne _ _ _ _ hd, State.slot_mk]
    exact Envelope.equiv_refl _

/-- `PARSE` repeated: what decides its tests is the packet and the configuration (R227). -/
theorem exec_parse_again {e : Slot} {ibuf : List Byte} {n : Nat} {s t : State} (h : exec (.parse e ibuf n) s = .next t) :
    ∃ u, exec (.parse e ibuf n) t = .next u ∧ u.resp = t.resp ∧ u.cfg = t.cfg ∧ u.ctx = t.ctx ∧ u.iel = t.iel ∧
      ∀ d, (u.slot d).equiv (t.slot d) := by
  obtain ⟨hw, hl, hn, rfl⟩ := execParse_next.1 h
  rcases parsed_cases s.cfg (ibuf.take n) with ⟨cause, -, hrej⟩ | ⟨-, hmax, -, hdel⟩
  · rw [hrej s e rfl]
    refine ⟨_, execParse_next.2 ⟨hw, by simpa using hl, hn, hrej _ e rfl⟩, rfl, rfl, rfl, rfl, fun d => ?_⟩
    exact Envelope.equiv_refl _
  · rw [hdel s e rfl]
    refine ⟨_, execParse_next.2 ⟨by simpa using hw, ?_, hn, hdel _ e (State.delivered_cfg _ _ _ _)⟩, rfl,
      State.delivered_cfg _ _ _ _, State.delivered_ctx _ _ _ _, State.delivered_iel _ _ _ _, fun d => ?_⟩
    · rw [State.slot_mk, State.slot_delivered, State.delivered_cfg]
      exact List.length_drop.trans_le hmax
    · rw [State.slot_mk, State.slot_mk]
      exact State.delivered_again s e _ _ _ d

/-- Settles O14: `PARSE` delivers the same frame again, and every other operation finds the state that it leaves. -/
theorem repeatedOperationsAreIdempotent : Obligations.RepeatedOperationsAreIdempotent := by
  intro i s t hfeed hadd h
  by_cases hparse : ∀ e ibuf n, i ≠ .parse e ibuf n
  · exact ⟨t, exec_again hfeed hadd hparse h, rfl, rfl, rfl, rfl, fun e => Envelope.equiv_refl _⟩
  · obtain ⟨e, ibuf, n, rfl⟩ : ∃ e ibuf n, i = .parse e ibuf n := by simpa using hparse
    exact exec_parse_again h

/-! ### Broken state -/

/-- The first precondition that fails refuses the operation (R13, R283). -/
theorem requireAll_refused {pre rest : List (Bool × Refusal)} {b : Bool} {why : Refusal} {k : Answer}
    (hpre : ∀ p ∈ pre, p.1 = true) (hb : b = false) : requireAll (pre ++ (b, why) :: rest) k = .refused why := by
  induction pre with
  | nil => rw [List.nil_append, requireAll_cons, hb]; rfl
  | cons p pre ih =>
    obtain ⟨hp, hrest⟩ := List.forall_mem_cons.1 hpre
    rw [List.cons_append, requireAll_cons, if_pos hp, ih hrest]

section broken
variable {s : State} {rest : List (Bool × Refusal)} {k : Answer} (hw : s.cfg.wf = true)
include hw

/-- An operation that asks first for a slot is refused when the slot is broken (R28). -/
theorem requireAll_brokenSlot {e : Slot} (h : s.cfg.cap < (s.slot e).dataLength) :
    requireAll (s.configOk :: s.slotOk e :: rest) k = .refused (.brokenEnvelope e) :=
  requireAll_refused (pre := [s.configOk]) (by simpa [State.configOk] using hw)
    (decide_eq_false (Nat.not_le.mpr h))

/-- An operation that asks first for the list is refused when the list is broken (R40). -/
theorem requireAll_brokenList (h : s.iel.cap < s.iel.size ∨ s.cfg.cap < s.iel.cap) :
    requireAll (s.configOk :: s.listOk :: rest) k = .refused .brokenList :=
  requireAll_refused (pre := [s.configOk]) (by simpa [State.configOk] using hw) (by simp [Iel.fits]; omega)

/-- An operation on a sound list is refused when the slot that the list is rooted at is broken (R28, R40). -/
theorem requireAll_brokenListSlot (hsize : s.iel.size ≤ s.iel.cap) (hcap : s.iel.cap ≤ s.cfg.cap)
    (h : s.cfg.cap < (s.slot s.iel.slot).dataLength) :
    requireAll (s.configOk :: s.listOk :: s.slotOk s.iel.slot :: rest) k = .refused (.brokenEnvelope s.iel.slot) :=
  requireAll_refused (pre := [s.configOk, s.listOk]) (by simp [State.configOk, State.listOk, Iel.fits, hw, hsize, hcap])
    (decide_eq_false (Nat.not_le.mpr h))

theorem execFeed_brokenContext (h : s.ctx.consistent s.cfg = false) (b : Byte) : execFeed b s = .refused .brokenContext :=
  requireAll_refused (pre := [s.configOk]) (by simpa [State.configOk] using hw) h

theorem execFeed_brokenSlot (hc : s.ctx.consistent s.cfg = true) (h : s.cfg.cap < s.rxe.dataLength) (b : Byte) :
    execFeed b s = .refused (.brokenEnvelope .rxe) :=
  requireAll_refused (pre := [s.configOk, s.contextOk]) (by simp [State.configOk, State.contextOk, hw, hc])
    (decide_eq_false (Nat.not_le.mpr h))

end broken

/-- Settles O16: each operation's list of preconditions asks for the part that is broken, and for nothing before it that
fails. -/
theorem brokenStateIsRefused : Obligations.BrokenStateIsRefused := by
  intro s hw
  refine ⟨fun e h ibuf n tag f v => ?_, execFeed_brokenSlot hw, fun hsize hcap h tag ibuf n => ?_,
    execFeed_brokenContext hw, fun h tag ibuf n => ?_⟩
  · have hrefused {rest : List (Bool × Refusal)} {k : Answer} := requireAll_brokenSlot (rest := rest) (k := k) hw h
    exact ⟨hrefused, hrefused, hrefused, hrefused, hrefused, hrefused, hrefused, hrefused, hrefused, hrefused⟩
  · exact ⟨requireAll_brokenListSlot hw hsize hcap h, requireAll_brokenListSlot hw hsize hcap h⟩
  · exact ⟨requireAll_brokenList hw h, requireAll_brokenList hw h, requireAll_brokenList hw h⟩

/-! ### The receive and the transmit group -/

/-- The parts of a state that an operation on the slot `e` alone writes, taken from another state. -/
def slotPart (e : Slot) (s s1 : State) : State :=
  match e with
  | .rxe => { s with rxe := s1.rxe, rxDraws := s1.rxDraws, resp := s1.resp }
  | .txe => { s with txe := s1.txe, txDraws := s1.txDraws, resp := s1.resp }

/-- The parts of a state that the transmit group's operations write (R63), taken from another state. -/
def transmitPart (s s1 : State) : State := { s with txe := s1.txe, iel := s1.iel, txDraws := s1.txDraws, resp := s1.resp }

/-- Two states agree on everything that an operation on the slot `e` alone reads. -/
structure AgreeOnSlot (e : Slot) (s s' : State) : Prop where
  cfg : s'.cfg = s.cfg
  slot : s'.slot e = s.slot e
  draws : s'.draws e = s.draws e

section slotPart
variable {e : Slot} {s s' : State} (ha : AgreeOnSlot e s s')
include ha

theorem slotPart_resp (r : Option Response) : slotPart e s' { s with resp := r } = { s' with resp := r } := by
  obtain ⟨-, hslot, hdraws⟩ := ha
  cases e <;> simp_all [slotPart, State.draws]

theorem slotPart_withSlot (v : Envelope) (r : Option Response) :
    slotPart e s' { s.withSlot e v with resp := r } = { s'.withSlot e v with resp := r } := by
  obtain ⟨-, -, hdraws⟩ := ha
  cases e <;> simp_all [slotPart, State.draws, State.withSlot]

theorem slotPart_delivered (h : Header) (p : List Byte) (r : Option Response) :
    slotPart e s' { s.delivered e h p with resp := r } = { s'.delivered e h p with resp := r } := by
  obtain ⟨-, -, hdraws⟩ := ha
  cases e <;> simp_all [slotPart, State.draws, State.withSlot, State.delivered, State.bumpDraws]

/-- An operation that reads or rewrites the slot that its operand names does the same wherever that slot is the same. -/
theorem exec_local_of_reads {i : Instr} {s1 : State} (hi : readsSlot i = some e) (h : exec i s = .next s1) :
    exec i s' = .next (slotPart e s' s1) := by
  obtain ⟨hw, hl, hwf, rfl⟩ := (exec_reads_next hi).1 h
  refine (exec_reads_next hi).2 ⟨ha.cfg ▸ hw, by rwa [ha.slot, ha.cfg], ha.cfg ▸ hwf, ?_⟩
  rw [slotPart_resp ha, ha.slot, ha.cfg]

theorem exec_local_of_rewrites {i : Instr} {s1 : State} (hi : rewritesSlot i = some e) (h : exec i s = .next s1) :
    exec i s' = .next (slotPart e s' s1) := by
  obtain ⟨hw, hl, rfl⟩ := (exec_rewrites_next hi).1 h
  refine (exec_rewrites_next hi).2 ⟨ha.cfg ▸ hw, by rwa [ha.slot, ha.cfg], ?_⟩
  rw [slotPart_withSlot ha, ha.slot, ha.cfg]

theorem exec_local_of_parse {ibuf : List Byte} {n : Nat} {s1 : State} (h : exec (.parse e ibuf n) s = .next s1) :
    exec (.parse e ibuf n) s' = .next (slotPart e s' s1) := by
  obtain ⟨hw, hl, hn, rfl⟩ := execParse_next.1 h
  refine execParse_next.2 ⟨ha.cfg ▸ hw, by rwa [ha.slot, ha.cfg], hn, ?_⟩
  rcases parsed_cases s.cfg (ibuf.take n) with ⟨cause, -, hrej⟩ | ⟨-, -, -, hdel⟩
  · rw [hrej s e rfl, hrej s' e ha.cfg, slotPart_resp ha]
  · rw [hdel s e rfl, hdel s' e ha.cfg, slotPart_delivered ha]

end slotPart

/-- The slot that an operand of the operation names, for the operations that touch nothing else (R69). -/
def operandSlot : Instr → Option Slot
  | .parse e _ _ | .envClr e | .envSet e _ _ | .ieGet e _ _ | .cksCalc e | .cksVfy e | .cksSeal e | .ser e | .sers e => some e
  | _ => none

theorem exec_local {i : Instr} {e : Slot} {s s' s1 : State} (hi : operandSlot i = some e) (ha : AgreeOnSlot e s s')
    (h : exec i s = .next s1) : exec i s' = .next (slotPart e s' s1) := by
  cases i with
  | parse => cases hi; exact exec_local_of_parse ha h
  | envClr | envSet | cksSeal => exact exec_local_of_rewrites ha hi h
  | ieGet | cksCalc | cksVfy | ser | sers => exact exec_local_of_reads ha hi h
  | _ => cases hi

/-- Two states agree on everything that the receive group's operations read (R63). -/
structure AgreeOnReceive (s s' : State) : Prop where
  cfg : s'.cfg = s.cfg
  ctx : s'.ctx = s.ctx
  rxe : s'.rxe = s.rxe
  draws : s'.rxDraws = s.rxDraws

/-- Two states agree on everything that the transmit group's operations read (R63). -/
structure AgreeOnTransmit (s s' : State) : Prop where
  cfg : s'.cfg = s.cfg
  iel : s'.iel = s.iel
  txe : s'.txe = s.txe
  draws : s'.txDraws = s.txDraws

/-- An operation of the receive group does the same wherever that group is the same. -/
theorem exec_receive_local {i : Instr} {s s' s1 : State} (hi : receiveOnly i = true) (ha : AgreeOnReceive s s')
    (h : exec i s = .next s1) : exec i s' = .next (receivePart s' s1) := by
  have named (hslot : operandSlot i = some .rxe) (hctx : writesCtx i = false) : exec i s' = .next (receivePart s' s1) := by
    rw [exec_local hslot ⟨ha.cfg, ha.rxe, ha.draws⟩ h, receivePart, (exec_effect h).ctx hctx, ← ha.ctx]
    rfl
  have pure_resp (r : Option Response) : { s' with resp := r } = receivePart s' { s with resp := r } := by
    simp [receivePart, ha.ctx, ha.rxe, ha.draws]
  cases i with
  | feed => exact execFeed_local h s' ha.cfg ha.ctx ha.rxe ha.draws
  | ctxInit =>
    obtain ⟨hw, rfl⟩ := execCtxInit_next.1 h
    exact execCtxInit_next.2 ⟨ha.cfg ▸ hw, by simp [receivePart, ha.rxe, ha.draws]⟩
  | h2n16 => obtain ⟨hw, rfl⟩ := execH2N16_next.1 h; exact execH2N16_next.2 ⟨ha.cfg ▸ hw, pure_resp _⟩
  | n2h16 => obtain ⟨hw, rfl⟩ := execN2H16_next.1 h; exact execN2H16_next.2 ⟨ha.cfg ▸ hw, pure_resp _⟩
  | parse | envClr | envSet | ieGet | cksCalc | cksVfy | cksSeal | ser | sers =>
    exact named (congrArg some (of_decide_eq_true hi)) rfl
  | envSetLen | ieAdd | ieNew | ieSize => cases hi

/-- An operation of the transmit group does the same wherever that group is the same. -/
theorem exec_transmit_local {i : Instr} {s s' s1 : State} (hi : transmitOnly s.iel.slot i = true) (ha : AgreeOnTransmit s s')
    (h : exec i s = .next s1) : exec i s' = .next (transmitPart s' s1) := by
  have named (hslot : operandSlot i = some .txe) (hiel : writesIel i = false) : exec i s' = .next (transmitPart s' s1) := by
    rw [exec_local hslot ⟨ha.cfg, ha.txe, ha.draws⟩ h, transmitPart, (exec_effect h).iel hiel, ← ha.iel]
    rfl
  have pure_resp (r : Option Response) : { s' with resp := r } = transmitPart s' { s with resp := r } := by
    simp [transmitPart, ha.iel, ha.txe, ha.draws]
  cases i with
  | h2n16 => obtain ⟨hw, rfl⟩ := execH2N16_next.1 h; exact execH2N16_next.2 ⟨ha.cfg ▸ hw, pure_resp _⟩
  | n2h16 => obtain ⟨hw, rfl⟩ := execN2H16_next.1 h; exact execN2H16_next.2 ⟨ha.cfg ▸ hw, pure_resp _⟩
  | ieSize =>
    obtain ⟨hw, hl, rfl⟩ := execIeSize_next.1 h
    exact execIeSize_next.2 ⟨ha.cfg ▸ hw, by rwa [ha.iel, ha.cfg], by simpa [ha.iel] using pure_resp _⟩
  | ieNew e n =>
    obtain rfl : e = .txe := of_decide_eq_true hi
    obtain ⟨hw, hl, hn, rfl⟩ := execIeNew_next.1 h
    exact execIeNew_next.2 ⟨ha.cfg ▸ hw, by simpa [ha.cfg, ha.txe] using hl, ha.cfg ▸ hn,
      by simp [transmitPart, ha.txe, ha.draws]⟩
  | envSetLen =>
    have hslot : s.iel.slot = .txe := of_decide_eq_true hi
    obtain ⟨hw, hl, hfits, rfl⟩ := execEnvSetLen_next.1 h
    rw [hslot] at hfits
    exact execEnvSetLen_next.2 ⟨ha.cfg ▸ hw, by rwa [ha.iel, ha.cfg], by simpa [ha.iel, hslot, ha.txe, ha.cfg] using hfits,
      by simp [transmitPart, State.withSlot, ha.iel, hslot, ha.txe, ha.draws]⟩
  | ieAdd tag ibuf n =>
    have hslot : s.iel.slot = .txe := of_decide_eq_true hi
    obtain ⟨⟨hw, hsize, hcap, hl, htag, hlen, hn⟩, rfl⟩ := execIeAdd_next.1 h
    rw [hslot] at hl
    refine execIeAdd_next.2 ⟨⟨ha.cfg ▸ hw, by rwa [ha.iel], by rwa [ha.iel, ha.cfg],
      by simpa [ha.iel, hslot, ha.txe, ha.cfg] using hl, ha.cfg ▸ htag, ha.cfg ▸ hlen, hn⟩, ?_⟩
    rw [ha.iel, ha.cfg]
    split
    · simp [transmitPart, ha.cfg, ha.txe, ha.draws]
    · simp [transmitPart, State.appended, State.withSlot, ha.iel, ha.cfg, hslot, ha.txe, ha.draws]
  | parse | envClr | envSet | ieGet | cksCalc | cksVfy | cksSeal | ser | sers =>
    exact named (congrArg some (of_decide_eq_true hi)) rfl
  | ctxInit | feed => cases hi

/-- Settles O13: each operation leaves the other's part of the state as it was, and reads nothing of it. -/
theorem receiveAndTransmitCommute : Obligations.ReceiveAndTransmitCommute := by
  intro a b s s1 s2 ha hb h1 h2
  -- `a` writes the receive part only, so that `b` runs alike before it and after it
  have hs1 : s1 = receivePart s s1 :=
    Host.Outcome.next.inj (h1.symm.trans (exec_receive_local ha ⟨rfl, rfl, rfl, rfl⟩ h1))
  have hback : AgreeOnTransmit s1 s := by rw [hs1]; exact ⟨rfl, rfl, rfl, rfl⟩
  have hb1 : transmitOnly s1.iel.slot b = true := by rwa [← hback.iel]
  have hs2 : s2 = transmitPart s1 s2 :=
    Host.Outcome.next.inj (h2.symm.trans (exec_transmit_local hb1 ⟨rfl, rfl, rfl, rfl⟩ h2))
  refine ⟨_, _, exec_transmit_local hb1 hback h2,
    exec_receive_local (s := s) (s' := transmitPart s s2) ha ⟨rfl, rfl, rfl, rfl⟩ h1, rfl, rfl, ?_⟩
  rw [hs2, hs1]
  rfl

end Sys2Proof.Machine
end

section
/-! SUPPORT. The port (`30_encoding.md` R117, R118): the decoder reads back what the encoder presents, and a step runs the oldest
transaction (`20_memory.md` R60); and the statements about them. -/

namespace Sys2Proof

@[simp] theorem Slot.ofBit_toBit (e : Slot) : Slot.ofBit e.toBit = e := by cases e <;> rfl

@[simp] theorem HeaderField.ofSelector_selector (f : HeaderField) : ofSelector f.selector = some f := by cases f <;> rfl

/-- Settles O1: the slot and the selector read back, and every other operand has lines of its own. -/
theorem decodeInvertsEncode : Obligations.DecodeInvertsEncode := by
  intro i
  cases i with
  | envSet e f v => simp [decode, encode]
  | parse e | envClr e | ieNew e | ieGet e | cksCalc e | cksVfy e | cksSeal e | ser e | sers e => simp [decode, encode]
  | ctxInit | feed | envSetLen | ieAdd | ieSize | h2n16 | n2h16 => rfl

/-- Settles O2: the eighteen table words are decoded one by one. -/
theorem opcodeTableWordsDecode : Obligations.OpcodeTableWordsDecode := by
  unfold Obligations.OpcodeTableWordsDecode
  decide

namespace Machine

theorem step_of_decode_eq_ok {s : State} {t : Transaction} {rest : List Transaction} {i : Instr} (hport : s.port = t :: rest)
    (hdec : decode t = .ok i) : step s = exec i { s with port := rest } := by
  simp [step, State.fetch, hport, hdec]

theorem step_of_port_eq_nil {s : State} (hport : s.port = []) : step s = .next s := by
  simp [step, State.fetch, hport]

/-- Settles O4: the two cases of the port. -/
theorem stepRunsTheOldestTransaction : Obligations.StepRunsTheOldestTransaction :=
  ⟨fun _ _ _ _ => step_of_decode_eq_ok, fun _ => step_of_port_eq_nil⟩

end Machine

end Sys2Proof
end

section
/-! SUPPORT. The checksum functions (`40_checksum_endian.md` R135, R142): the reference functions as folds over the covered bytes,
what a flipped payload bit does to any of them, and the statements about them. -/

namespace Sys2Proof.Machine

theorem foldl_add_eq (l : List Byte) (a : Byte) : l.foldl (· + ·) a = a + BitVec.ofNat 8 (l.map BitVec.toNat).sum := by
  induction l generalizing a with
  | nil => simp
  | cons b l ih =>
    rw [List.foldl_cons, ih, List.map_cons, List.sum_cons, BitVec.ofNat_add, BitVec.ofNat_toNat, BitVec.setWidth_eq,
      BitVec.add_assoc]

theorem csumAdd_eq_foldl (cookie unitId : Byte) (serviceId : Half) (messageId : Byte) (payload : List Byte) :
    csumAdd cookie unitId serviceId messageId payload =
      (coveredBytes cookie unitId serviceId messageId payload).foldl (· + ·) 0 := by
  rw [foldl_add_eq, zero_add, csumAdd, coveredBytes]
  simp [Nat.add_assoc]

theorem csumXor_eq_foldl (cookie unitId : Byte) (serviceId : Half) (messageId : Byte) (payload : List Byte) :
    csumXor cookie unitId serviceId messageId payload =
      (coveredBytes cookie unitId serviceId messageId payload).foldl (· ^^^ ·) 0 := by
  rw [coveredBytes, List.foldl_append, foldl_xor_start payload, csumXor]
  simp

/-- Settles O24: both folds start from the fold of the five header bytes. -/
theorem referenceChecksumsAreFolds : Obligations.ReferenceChecksumsAreFolds := fun cookie unitId serviceId messageId payload =>
  ⟨csumAdd_eq_foldl cookie unitId serviceId messageId payload, csumXor_eq_foldl cookie unitId serviceId messageId payload⟩

/-- Changing one byte of a slot's data changes that byte of its payload. -/
theorem Envelope.payload_modify (v : Envelope) (i : Nat) (f : Byte → Byte) :
    Envelope.payload { v with data := v.data.set i (f (v.data.get i)) } = v.payload.modify i f := by
  apply List.ext_getElem (by simp [Envelope.payload])
  intro k hk _
  simp only [Envelope.payload, Memory.getElem_getRange, List.getElem_modify, Memory.get_set, Nat.zero_add]
  by_cases hki : i = k
  · simp [hki]
  · simp [hki, Ne.symm hki]

/-- A flipped payload bit changes `CSUM`, whichever legal function it is (R135). -/
theorem Envelope.csum_flip_ne (c : Config) (v : Envelope) {i k : Nat} (hi : i < v.dataLength) (hk : k < 8) :
    Envelope.csum c { v with data := v.data.set i (v.data.get i ^^^ BitVec.twoPow 8 k) } ≠ v.csum c := by
  rw [Envelope.csum, Envelope.payload_modify v i (· ^^^ BitVec.twoPow 8 k)]
  exact (csumFn c.csum).sensitive _ _ _ _ v.payload i k (by rwa [Envelope.length_payload]) hk

/-- Settles O23: the slot with the flipped bit has the stored checksum of a slot that verifies and another `CSUM`. -/
theorem payloadBitFlipsAreDetected : Obligations.PayloadBitFlipsAreDetected := by
  intro s e i k hw hl heq hi hk
  refine ⟨_, rfl, exec_cksVfy_of_ne (by simpa using hw) (by simpa using hl) ?_⟩
  rw [State.withSlot_cfg, State.slot_withSlot]
  exact fun h => Envelope.csum_flip_ne s.cfg (s.slot e) hi hk (h.trans heq.symm)

end Sys2Proof.Machine
end

section
/-! SUPPORT. The Information-Element codec (`41_ie_codec.md`): what `IE.ADD` refuses, what `IE.SIZE` returns, where the scan of
`IE.GET` ends without a match, and the statements about them. -/

namespace Sys2Proof.Machine

/-- Settles O28: the preconditions of `IE.ADD` in order. Before the tag it asks for the configuration, the list and the slot,
before the length for the tag too, and before the operand for the length too. -/
theorem addRefusesWhatItCannotEncode : Obligations.AddRefusesWhatItCannotEncode := by
  intro s tag ibuf n hw hsize hcap hl
  have hpre : ∀ p ∈ [s.configOk, s.listOk, s.slotOk s.iel.slot], p.1 = true := by
    simp [State.configOk, State.listOk, Iel.fits, State.slotOk, Envelope.fits, hw, hsize, hcap, hl]
  refine ⟨fun htag hlen => ?_, fun htag => ?_, fun htag hlen hshort => ?_⟩
  · exact requireAll_refused (pre := [s.configOk, s.listOk, s.slotOk s.iel.slot] ++ [s.tagOk tag])
      (List.forall_mem_append.2 ⟨hpre, by simpa [State.tagOk] using htag⟩) (decide_eq_false (Nat.not_lt.mpr hlen))
  · exact requireAll_refused hpre (decide_eq_false (Nat.not_lt.mpr htag))
  · exact requireAll_refused
      (pre := [s.configOk, s.listOk, s.slotOk s.iel.slot] ++ [s.tagOk tag, (s.cfg.lengthFits n, .lengthNotEncodable)])
      (List.forall_mem_append.2 ⟨hpre, by simpa [State.tagOk, htag, Config.lengthFits] using hlen⟩)
      (decide_eq_false (Nat.not_le.mpr hshort))

/-- Settles O29: both the operand's length and its first `n` bytes are the same. -/
theorem addUsesTheFirstBytes : Obligations.AddUsesTheFirstBytes := by
  intro s tag ibuf n hn
  simp [exec, execIeAdd, List.take_take, hn]

theorem toNat_sizeResult {size : Nat} (h : size < 2 ^ 16) : (sizeResult size).toNat = size := by
  rw [sizeResult, if_pos h, BitVec.toNat_ofNat, Nat.mod_eq_of_lt h]

/-- Settles O30: both preconditions are met, and 16 bits hold the size without loss. -/
theorem sizeReturnsTheListSize : Obligations.SizeReturnsTheListSize := fun s hw hsize hcap =>
  ⟨sizeResult s.iel.size, execIeSize_next.2 ⟨hw, ⟨hsize, hcap⟩, rfl⟩, toNat_sizeResult⟩

/-- A payload in which no whole entry has the tag (R158). -/
theorem getResponse_defect {c : Config} (hw : c.wf = true) {ies : List (Nat × List Byte)} {tag : Nat} {post : List Byte} (n : Nat)
    (hies : ∀ tv ∈ ies, encodable c tv ∧ tv.1 ≠ tag)
    (hpost : post.length < ovh c ∨ post.length < ovh c + beVal (slice post c.tagW c.lenW)) :
    getResponse c (listBytes c ies ++ post) tag n = { ok := false, cause := some .ieAbsent } := by
  rw [getResponse, ieFind_absent ies tag post n (ovh_pos hw) hies hpost]
  rfl

/-- Settles O32: the scan passes the entries of other tags and ends at the defect. -/
theorem getStopsAtADefect : Obligations.GetStopsAtADefect := by
  intro s e tag n ies post hw hl htag hies hpost hpayload
  rw [exec_ieGet n hw hl htag, hpayload, getResponse_defect hw n hies hpost]

end Sys2Proof.Machine
end

section
/-! SUPPORT. The framer over runs of bytes (`43_framer.md` sections 4 and 5): how `FEED` moves the context, what a header's bytes, a
run of frames and a packet behind its length field leave, and the statements about them. -/

namespace Sys2Proof.Machine

/-- Settles O43: the buffered payload takes the byte at its index. -/
theorem feedStoresAPayloadByte : Obligations.FeedStoresAPayloadByte := fun s b hw hr hp hd hs hc =>
  ⟨s.ctx.payload.set (s.ctx.count - shdr s.cfg) b,
    (execFeed_payload b ⟨hw, hr⟩ hp (by omega) hd hs (by omega)).trans (feedPayload_mid hd hs hc),
    fun _ => Memory.get_set _ _ _ _⟩

/-- Every effect of `FEED` either counts a byte, in mid-frame, or ends the frame with a zero context; the context it leaves is
consistent (R37, R38, R193). -/
theorem FeedEffect.advances_or_zeroes {s t : State} {b : Byte} (he : FeedEffect s b t) (hw : s.cfg.wf = true) :
    ∃ r, t.resp = some r ∧ t.ctx.consistent t.cfg = true ∧
      ((r = { ok := false } ∧ t.ctx.count = s.ctx.count + 1) ∨ ((r.ok = true ∨ r.cause ≠ none) ∧ t.ctx = .zero)) := by
  cases he with
  | headerByte hp hc => exact ⟨_, rfl, consistent_iff.2 (.inl ⟨hp, hc⟩), .inl ⟨rfl, rfl⟩⟩
  | declared hp hc hl hu =>
    exact ⟨_, rfl, consistent_iff.2 (.inr ⟨rfl, by dsimp only; omega⟩), .inl ⟨rfl, rfl⟩⟩
  | payloadByte hp hd hs hc =>
    exact ⟨_, rfl, consistent_iff.2 (.inr ⟨hp, by dsimp only; omega⟩), .inl ⟨rfl, rfl⟩⟩
  | rejected => exact ⟨_, rfl, consistent_zero hw, .inr ⟨.inr (by simp), rfl⟩⟩
  | delivered => exact ⟨_, rfl, consistent_zero (by simpa using hw), .inr ⟨.inl rfl, rfl⟩⟩

/-- Settles O45: `FEED` is total on consistent contexts, and each of its effects counts or zeroes. -/
theorem feedAdvancesOrZeroes : Obligations.FeedAdvancesOrZeroes := by
  intro s b hw hr hc
  obtain ⟨t, ht, he⟩ := execFeed_total b ⟨hw, hr⟩ hc
  obtain ⟨r, hmoves⟩ := he.advances_or_zeroes hw
  exact ⟨t, r, ht, hmoves⟩

/-- Settles O49: the bytes are header bytes short of the header's end. -/
theorem noCompletionWithinAHeader : Obligations.NoCompletionWithinAHeader := by
  intro s bytes hw hr hz hlen
  have hcount : s.ctx.count = 0 := by rw [hz]; rfl
  obtain ⟨hdr, r, hrun, -⟩ := feedAll_header bytes s ⟨hw, hr⟩ (by rw [hz]; rfl) (by omega)
  exact ⟨_, hrun, by simp [hcount], rfl⟩

/-- Settles O48: the induction over the frames is `feedAll_frames`, and what it leaves in `RXE` is `framedAll_facts`. -/
theorem backToBackFramesAreFramedOneByOne : Obligations.BackToBackFramesAreFramedOneByOne := by
  intro s frames hw hr hz hl
  obtain ⟨-, hctx, hlast, hnone⟩ := framedAll_facts frames s
  exact ⟨framedAll s frames, feedAll_frames frames s ⟨hw, hr⟩ hz hl, hctx hz, hlast, hnone⟩

/-! ### PARSE against FEED -/

/-- A packet behind its length field is a stream frame (R95, R228). -/
theorem streamBytes_headerOf (c : Config) {packet : List Byte} (h : hdrLen ≤ packet.length) :
    streamBytes c (headerOf packet) (packet.drop hdrLen) = beBytes c.lenfW (packet.length - hdrLen + c.lenfBias) ++ packet := by
  rw [streamBytes, frameBytes_headerOf h, List.length_drop]

/-- `PARSE` of a packet of legal length with verification answers what `FEED` answers at the frame's last byte (R228). -/
theorem parsed_agrees_framed {s : State} (d : Slot) {packet : List Byte} (hv : s.cfg.parseVerify = true)
    (hmin : hdrLen ≤ packet.length) (hmax : packet.length ≤ hdrLen + s.cfg.cap) :
    ∃ r, (s.parsed d packet).resp = some r ∧ r.ok = goodFrame s.cfg (headerOf packet, packet.drop hdrLen) ∧
      (r.ok = true → ((s.parsed d packet).slot d).holds (headerOf packet) (packet.drop hdrLen)) := by
  by_cases hgood : frameCsum s.cfg (headerOf packet) (packet.drop hdrLen) = (headerOf packet).checksum
  · rw [State.parsed_of_good hmin hmax fun _ => hgood]
    refine ⟨_, rfl, (decide_eq_true hgood).symm, fun _ => ?_⟩
    rw [State.slot_mk, State.slot_delivered]
    exact deliveredEnvelope_holds _ _ _ _
  · rw [State.parsed_of_mismatch hmin hmax hv hgood]
    exact ⟨_, rfl, (decide_eq_false hgood).symm, by simp⟩

/-- Settles O54: the packet behind its length field is one stream frame, so that the framer and the parser make the same
checksum test and, where it passes, hold the same frame. -/
theorem parserAndFramerAgree : Obligations.ParserAndFramerAgree := by
  intro s d packet hw hv hz hr hd hmin hmax
  have hlen : (packet.drop hdrLen).length ≤ s.cfg.cap := by
    rw [List.length_drop, hdrLen]
    omega
  have hfeed := feedAll_frame ⟨hw, hr⟩ hz (headerOf packet, packet.drop hdrLen) hlen
  rw [streamBytes_headerOf _ hmin] at hfeed
  obtain ⟨r, hresp, hok, hholds⟩ := parsed_agrees_framed d hv hmin hmax
  have hparse := exec_parse hw hd (le_refl packet.length)
  rw [List.take_length] at hparse
  refine ⟨_, r, _, _, hparse, hresp, hfeed, by rw [hok]; simp, fun h => ?_⟩
  exact Envelope.equiv_of_holds (hholds h) (framed_holds (hok ▸ h))

/-! ### Beyond the capacity -/

/-- The frame with a zero header and 26 zero payload bytes, whose checksum is right in profile T. -/
def zeroFrame : Header × List Byte := (headerOf [], List.replicate 26 0)

/-- A packet of 33 payload bytes, one more than profile T's capacity: behind a zero header, a stream frame of legal length. -/
def overflowPacket : List Byte := headerBytes (headerOf []) ++ streamBytes Config.profileT zeroFrame.1 zeroFrame.2

/-- Reset after a `FEED` that was rejected for a declared length above the capacity. -/
def afterOverflow : State := { State.reset with resp := some { ok := false, cause := some .lenOverflow } }

/-- The stream header of the packet declares 33 bytes, and is rejected at its last byte (R198, R204). -/
theorem feedAll_overflow :
    feedAll (beBytes 1 33 ++ headerBytes (headerOf [])) State.reset = .next (List.replicate 7 false, afterOverflow) := rfl

/-- Settles O55: after the rejected header the rest of the packet is framed as the stream frame that it is. -/
theorem framerMayDeliverFalselyAfterOverflow : Obligations.FramerMayDeliverFalselyAfterOverflow := by
  have hparse : exec (.parse .txe overflowPacket overflowPacket.length) State.reset = .next afterOverflow := by
    rw [exec_parse (by decide) (by decide) (le_refl _), List.take_length, State.parsed_of_overflow (by decide)]
    rfl
  have hrest := feedAll_frame (s := afterOverflow) ⟨by decide, by decide⟩ rfl zeroFrame (by decide)
  have hfeed := feedAll_append feedAll_overflow hrest
  have hgood : goodFrame afterOverflow.cfg zeroFrame = true := by decide
  rw [hgood, List.append_assoc, ← List.append_assoc (List.replicate 7 false)] at hfeed
  exact ⟨State.reset, overflowPacket, _, _, State.inv_reset, rfl, rfl, by decide, hparse, hfeed, List.getLast?_concat⟩

end Sys2Proof.Machine
end

section
/-! SUPPORT. The message builders (`45_builders.md`): what a build leaves for any elements, the builders without payload, the raw
data that cannot fit, `SEND`, and the statements about them. -/

namespace Sys2Proof.Machine

/-! ### BUILD -/

/-- What a build of `ies` in slot `e` with result `ok` leaves (R236 to R238, R247). -/
structure BuildResult (e : Slot) (h : Header) (ies : List (Nat × List Byte)) (s : State) (ok : Bool) (t : State) : Prop where
  fits : ok = true ↔ (listBytes s.cfg ies).length ≤ s.cfg.cap
  holds : ok = true → (t.slot e).holds h (listBytes s.cfg ies)
  slot : (t.slot e).dataLength ≤ s.cfg.cap
  cfg : t.cfg = s.cfg
  ctx : t.ctx = s.ctx
  port : t.port = s.port
  other : ∀ d, d ≠ e → t.slot d = s.slot d

/-- The header that a build gives its slot (R236). -/
def buildHeader (unit : Byte) (svc : Half) (msg : Byte) : Header :=
  { cookie := 0, unitId := unit, serviceId := svc, messageId := msg, checksum := 0 }

/-- An addition whose result bit is 0 ends the build (R237). -/
theorem buildTail_cons_of_not_ok {tv : Nat × List Byte} {ies : List (Nat × List Byte)} {s s1 : State}
    (h : exec (addElement tv) s = .next s1) (hok : s1.okLine = false) : buildTail (tv :: ies) s = .next (false, s1) := by
  simp only [buildTail, h]
  exact if_neg (by simpa [State.okLine] using hok)

section build
variable {s : State} {e : Slot} (unit : Byte) (svc : Half) (msg : Byte) (hw : s.cfg.wf = true)
  (hl : (s.slot e).dataLength ≤ s.cfg.cap)
include hw hl

/-- The head of a build leaves an empty list over a zero buffer, and a build goes on with its additions from there (R236). -/
theorem exists_buildHead (ies : List (Nat × List Byte)) :
    ∃ s1, build e unit svc msg ies s = buildTail ies s1 ∧ s1.cfg = s.cfg ∧ s1.ctx = s.ctx ∧ s1.port = s.port ∧
      s1.iel = ⟨e, s.cfg.cap, 0⟩ ∧ (∀ d, d ≠ e → s1.slot d = s.slot d) ∧ (s1.slot e).dataLength = 0 ∧
      (s1.slot e).data = .zero ∧ (s1.slot e).header = buildHeader unit svc msg := by
  obtain ⟨oks, s1, hhead, hs1⟩ := buildHead_run unit svc msg hw hl
  exact ⟨s1, by rw [build, hhead], hs1⟩

/-- A build of encodable elements completes (R236 to R238). -/
theorem build_total {ies : List (Nat × List Byte)} (he : ∀ tv ∈ ies, encodable s.cfg tv) :
    ∃ ok t, build e unit svc msg ies s = .next (ok, t) ∧ BuildResult e (buildHeader unit svc msg) ies s ok t := by
  obtain ⟨s1, hbuild, hcfg, hctx, hport, hiel, hother, hlen, -, hheader⟩ := exists_buildHead unit svc msg hw hl ies
  obtain ⟨ok, t, htail, hcfg', hctx', hport', hother', hcap, hfits, hholds⟩ := buildTail_total ies s1 (hcfg ▸ hw)
    (by simp [hiel]) (by simp [hiel, hcfg]) (by simp [hiel, hlen]) (hcfg ▸ he)
  simp only [hiel, hcfg, Nat.zero_add] at hother' hcap hfits hholds
  exact ⟨ok, t, hbuild.trans htail, {
    fits := hfits
    holds := by simpa [hheader] using hholds
    slot := hcap
    cfg := hcfg'.trans hcfg
    ctx := hctx'.trans hctx
    port := hport'.trans hport
    other := fun d hd => (hother' d hd).trans (hother d hd) }⟩

/-- A build whose one element cannot fit fails at its addition, which leaves the zeroed buffer as it is (R238, R243). -/
theorem build_one_of_full {tv : Nat × List Byte} (he : encodable s.cfg tv) (hfull : s.cfg.cap < ovh s.cfg + tv.2.length) :
    ∃ t, build e unit svc msg [tv] s = .next (false, t) ∧ ∀ a, (t.slot e).data.get a = 0 := by
  obtain ⟨s1, hbuild, hcfg, -, -, hiel, -, hlen, hzero, -⟩ := exists_buildHead unit svc msg hw hl [tv]
  have hr : AddReady s1 tv.1 tv.2 tv.2.length :=
    ⟨hcfg ▸ hw, by simp [hiel], by simp [hiel, hcfg], by simp [hiel, hlen], hcfg ▸ he.1, hcfg ▸ he.2, le_refl _⟩
  have hadd := exec_ieAdd_of_full hr (by simpa [hiel, hcfg] using hfull)
  refine ⟨_, hbuild.trans (buildTail_cons_of_not_ok hadd rfl), fun a => ?_⟩
  rw [State.slot_mk, hzero, Memory.get_zero]

end build

/-- Settles O56: the head empties the list, and the additions and `ENV.SETLEN` are `buildTail_total`. -/
theorem buildSucceedsExactlyWhenEntriesFit : Obligations.BuildSucceedsExactlyWhenEntriesFit := by
  intro s e unit svc msg ies hw hl he
  obtain ⟨ok, t, hbuild, hres⟩ := build_total unit svc msg hw hl he
  exact ⟨ok, t, hbuild, hres.fits, hres.holds, hres.slot, hres.cfg, hres.ctx, hres.port, hres.other⟩

/-! ### The named builders -/

theorem Builder.elements_of_payloadless {b : Builder} (c : Config) (h : b.payloadless = true) : b.elements c = [] := by
  cases b with
  | deviceRegistrationRequest rfpi =>
    cases rfpi with
    | none => rfl
    | some => cases h
  | deviceDeregistrationRequest | systemResetRequest | rssiGet => rfl
  | _ => cases h

/-- Settles O57: a build without elements adds nothing, and an empty list fits. -/
theorem payloadlessBuildersAlwaysSucceed : Obligations.PayloadlessBuildersAlwaysSucceed := by
  intro s b e unit hw hl hb
  have hnone := Builder.elements_of_payloadless s.cfg hb
  obtain ⟨ok, t, hbuild, hres⟩ := build_total (s := s) (e := e) unit (builderService b.name) (Config.builderMessage b.name) hw hl
    (ies := b.elements s.cfg) (by simp [hnone])
  obtain rfl : ok = true := hres.fits.2 (by simp [hnone, listBytes])
  obtain ⟨hheader, hlen, -⟩ := hres.holds rfl
  obtain ⟨-, hunit, -⟩ := Header.mk.inj hheader
  exact ⟨t, hbuild, by simpa [hnone, listBytes] using hlen, hunit⟩

/-- The service column of R239's table. -/
theorem builderService_of_serviceOf {name : BuilderName} {service : ServiceName} (h : serviceOf name = some service) :
    builderService name = Config.serviceConstant service := by
  rw [builderService, h]

/-- An alert request has an element, whose entry is not empty (R241). -/
theorem listBytes_alertRequest_pos {c : Config} (hw : c.wf = true) {b : Builder} (h : b.name = .alertNotifyRequest) :
    0 < (listBytes c (b.elements c)).length := by
  cases b with
  | alertNotifyRequest first more =>
    have := ovh_pos hw
    simp [Builder.elements, listBytes]
    omega
  | _ => cases h

/-- Settles O58: a named builder is a build with the constants of its row, and raw data is a build of one element. -/
theorem namedBuildersFollowTheTable : Obligations.NamedBuildersFollowTheTable := by
  intro s b e unit hw hl he
  obtain ⟨ok, t, hbuild, hres⟩ :=
    build_total (s := s) (e := e) unit (builderService b.name) (Config.builderMessage b.name) hw hl he
  refine ⟨ok, t, hbuild, hres.fits, fun hok => ?_, fun hname hok => ?_, fun raw hraw hfull => ?_⟩
  · obtain ⟨hheader, -, hpayload⟩ := hres.holds hok
    obtain ⟨-, hunit, hsvc, hmsg, -⟩ := Header.mk.inj hheader
    exact ⟨fun service h => hsvc.trans (builderService_of_serviceOf h), hmsg, hunit, hpayload⟩
  · obtain ⟨-, hlen, -⟩ := hres.holds hok
    exact hlen ▸ listBytes_alertRequest_pos hw hname
  · subst hraw
    obtain ⟨t', hfail, hzero⟩ := build_one_of_full (e := e) unit (builderService .rawDataSendRequest)
      (Config.builderMessage .rawDataSendRequest) hw hl (he _ (List.mem_singleton_self _)) hfull
    cases hbuild.symm.trans hfail
    exact ⟨rfl, hzero⟩

/-! ### SEND -/

section send
variable {s : State} {e : Slot} (hw : s.cfg.wf = true) (hl : (s.slot e).dataLength ≤ s.cfg.cap)
include hw hl

/-- Sealing and then an operation that emits a buffer (R248). -/
theorem runAll_seal {i : Instr} {bytes : List Byte}
    (hi : exec i (s.sealed e) = .next { s.sealed e with resp := some (.buffer bytes) }) :
    runAll [.cksSeal e, i] s = .next ([true, true], { s.sealed e with resp := some (.buffer bytes) }) :=
  runAll_cons (exec_cksSeal hw hl) (runAll_cons hi (runAll_nil _))

theorem runAll_sendOps (form : SendForm) :
    ∃ bytes, runAll (sendOps form e) s = .next ([true, true], { s.sealed e with resp := some (.buffer bytes) }) ∧
      (form = .packet → bytes = frameBytes ((s.slot e).header.sealed s.cfg (s.slot e).payload) (s.slot e).payload) ∧
      (form = .stream → bytes = streamBytes s.cfg ((s.slot e).header.sealed s.cfg (s.slot e).payload) (s.slot e).payload) := by
  have hw' : (s.sealed e).cfg.wf = true := by simpa using hw
  have hl' : ((s.sealed e).slot e).dataLength ≤ (s.sealed e).cfg.cap := by simpa using hl
  obtain ⟨hheader, -, hpayload⟩ := State.sealed_holds (s := s) (e := e) (Envelope.holds_self _)
  cases form with
  | packet =>
    have hser := exec_ser hw' hl'
    rw [hheader, hpayload] at hser
    exact ⟨_, runAll_seal hw hl hser, fun _ => rfl, by simp⟩
  | stream =>
    have hsers := exec_sers hw' hl'
    rw [hheader, hpayload] at hsers
    exact ⟨_, runAll_seal hw hl hsers, by simp, fun _ => by rw [State.sealed_cfg]⟩

end send

/-- Settles O60: the slot is sealed, and what is emitted is the frame of the sealed slot in the form asked for. -/
theorem sendSealsAndEmits : Obligations.SendSealsAndEmits := by
  intro s e form hw hl
  obtain ⟨bytes, hrun, hpacket, hstream⟩ := runAll_sendOps hw hl form
  exact ⟨_, bytes, hrun, by rw [State.slot_mk, State.slot_sealed], rfl, hpacket, hstream⟩

end Sys2Proof.Machine
end
